-- ==== Sys2Proof/Word.lean ====
section
/-! DEFINITION. The word types of the block: R4 (32 bits, not a parameter), R6 (what a command answers), R33 (the
34-bit command word). -/

namespace Sys2Proof

/-- A 32-bit word: the state, the seed and the output (R4, R10). Bit `i` has weight `2^i` (00_scope section 6). -/
abbrev Word := BitVec 32

/-- The command word `CMD[33:0] = {load, next, seed_in[31:0]}` (R33). -/
abbrev CommandWord := BitVec 34

/-- What a command returns to the host: nothing, or an output word (R6, R31). -/
abbrev Response := Option Word

end Sys2Proof
end

