-- ==== Sys2Proof/Config.lean ====
section
/-! DEFINITION. What is fixed for the machine: the block's constants (R5), the host layer's two open parameters
(00_scope "Open parameters"), and the values the spec leaves open, as constants with no body. -/

namespace Sys2Proof.Config

/-- `INC`, the Weyl increment (R5). -/
abbrev inc : Word := 0x9E3779B9#32

/-- `ROT`, the rotate amount of the diffusion step (R5). -/
abbrev rot : Nat := 16

/-- `SHR`, the shift amount of the whitening step (R5). -/
abbrev shr : Nat := 16

/-- `SEED_DEFAULT`, the seed when the caller supplies none (R5), and the reset value of `S` (R18). -/
abbrev seedDefault : Word := 0x00000000#32

/-- FREE VALUE (U4, U10; log 5, DESIGN CHOICE of form): the value of `S` in the block instance numbered `unit` when its power
or clock came up for the `n`-th time and no reset and no `SEED` has happened since. Any value. The number `unit` is the
model's, so that two instances (R72) need not power up alike; the block has no instance identifier. -/
opaque powerUpS : (unit : Nat) → (n : Nat) → Word

/-- FREE VALUE (U3; log 4, DESIGN CHOICE of form): what `out_data` carries in a tick with `out_valid = 0`, applied to what
R17 lets a port depend on, the state register and the 35 input wires of the tick. Any value. -/
opaque idleOutData : (S : Word) → (inputs : BitVec 35) → Word

/-- The host layer's open parameter `range_rounding` (R60, D16). -/
inductive RangeRounding where
  /-- Toward zero: the reference design's behaviour. -/
  | truncate
  /-- Toward negative infinity. -/
  | floor
  deriving DecidableEq, Repr

/-- The host layer's open parameter `seed_nonint_policy` (R62, D8). -/
inductive SeedNonIntPolicy where
  /-- Refuse with an error: the reference value. -/
  | refuse
  /-- Drop the fraction, then wrap. -/
  | truncateThenWrap
  deriving DecidableEq, Repr

end Sys2Proof.Config
end

