-- ==== Sys2Proof/Syntax.lean ====
section
/-! DEFINITION. The commands (R33), the input ports of one tick (R30), the host's events (R82), and the assembler's
lines (R38, R39). -/

namespace Sys2Proof

/-- The three commands, one constructor per row of spec/opcode_table.json (R33). -/
inductive Instr where
  /-- `HOLD` (R41): no operation. -/
  | hold
  /-- `STEP` (R50): advance the state and return the output word. -/
  | step
  /-- `SEED v` (R40): load the state register. -/
  | seed (v : Word)
  deriving DecidableEq, Repr

/-- The values the host drives on the input ports in one tick (R30). `clk` is the tick itself. -/
structure TickInputs where
  /-- Reset request, active high. -/
  rst : Bool
  /-- `true` requests `SEED`. -/
  load : Bool
  /-- `true` requests `STEP`, when `load` is not driven. -/
  next : Bool
  /-- The seed operand of `SEED`. -/
  seedIn : Word
  deriving DecidableEq, Repr

/-- A host event of a run (R82): reset, or one of the three commands. -/
inductive HostEvent where
  | reset
  | command (i : Instr)
  deriving DecidableEq, Repr

/-- Why a number is no command word (the machine's ports cannot carry one: log 7). -/
inductive DecodeReject where
  /-- A bit above bit 33 is set. -/
  | widerThanCommandWord
  deriving DecidableEq, Repr

/-- One line of the assembler's text, read (R38; the pseudo-instructions of R39). Literals are still unbounded. -/
inductive AsmLine where
  | reset
  | hold
  /-- `STEP`, or `STEP -> name`, which names the response for later reference. What a name may be is the model's choice
  (log 8, DESIGN CHOICE): any word, and no name need be new. -/
  | step (name : Option (List Char))
  | seed (imm : Nat)
  /-- `NEW`: the seed omitted. -/
  | new
  /-- `NEW imm`. -/
  | newSeed (imm : Nat)
  | nextU32
  /-- `SKIP k`. -/
  | skip (k : Nat)
  | nop
  deriving DecidableEq, Repr

/-- Why a line does not assemble (R38). -/
inductive AsmError where
  /-- A literal outside `[0, 2^32 - 1]`: an assembly error, never wrapped. -/
  | literalOutOfRange
  /-- A literal that is neither `0x` and hexadecimal digits nor decimal digits. -/
  | badLiteral
  /-- No line of R38 or R39 has this form. -/
  | unknownLine
  deriving DecidableEq, Repr

end Sys2Proof
end

