-- ==== Sys2Proof/WellFormed.lean ====
section
/-! DEFINITION. Which terms of the syntax are well formed: every command is (R36: no command word is illegal, and the
operand's type is the 32-bit port); an assembler line is when its seed literal is in range (R38). -/

namespace Sys2Proof

/-- Every command with every operand is well formed (R36, R40). -/
def Instr.wellFormed : Instr → Bool
  | .hold => true
  | .step => true
  | .seed _ => true

/-- A literal that `imm32` allows: unsigned, in `[0, 2^32 - 1]` (R38). -/
def isImm32 (n : Nat) : Bool := decide (n < 4294967296)

/-- A line whose seed literal, if it has one, is an `imm32` (R38). The count of `SKIP` is no seed and has no bound (R39). -/
def AsmLine.wellFormed : AsmLine → Bool
  | .reset => true
  | .hold => true
  | .step _ => true
  | .seed imm => isImm32 imm
  | .new => true
  | .newSeed imm => isImm32 imm
  | .nextU32 => true
  | .skip _ => true
  | .nop => true

end Sys2Proof
end

