-- ==== Sys2Proof/Decode.lean ====
section
/-! DEFINITION. The command word: its fields (R34), the decoder, total on every word (R33, R36), and the encoder of the
canonical forms (R38); the ports as a command word and back (R30, R33). -/

namespace Sys2Proof

/-- Field `load`, bit 33 (R34). -/
def fieldLoad (c : CommandWord) : Bool := c.getLsbD 33

/-- Field `next`, bit 32 (R34). -/
def fieldNext (c : CommandWord) : Bool := c.getLsbD 32

/-- Field `seed_in`, bits 31:0, taken as it stands (R34, R35). -/
def fieldSeedIn (c : CommandWord) : Word := c.extractLsb' 0 32

/-- The command a word stands for (R33, R36): `load` selects `SEED` whatever `next` is, then `next` selects `STEP`. -/
def decode (c : CommandWord) : Instr :=
  if fieldLoad c then .seed (fieldSeedIn c)
  else if fieldNext c then .step
  else .hold

/-- The canonical word of a command: the ignored bits are 0 (R33, R38). -/
def encode : Instr → CommandWord
  | .hold => 0x000000000#34
  | .step => 0x100000000#34
  | .seed v => 0x200000000#34 ||| v.setWidth 34

/-- The canonical word with the same meaning: ignored bits cleared (R34, R36). -/
def canonical (c : CommandWord) : CommandWord :=
  if fieldLoad c then c &&& 0x2FFFFFFFF#34 else c &&& 0x100000000#34

/-- The three command inputs of a tick as one word, `{load, next, seed_in}` (R33). -/
def TickInputs.cmd (t : TickInputs) : CommandWord :=
  (BitVec.ofBool t.load ++ BitVec.ofBool t.next) ++ t.seedIn

/-- All 35 input wires of a tick, `{rst, load, next, seed_in}` (R30). -/
def TickInputs.bits (t : TickInputs) : BitVec 35 := BitVec.ofBool t.rst ++ t.cmd

/-- The ports of a tick without reset that carry the command word `c` (R30, R33). -/
def TickInputs.ofCommandWord (c : CommandWord) : TickInputs :=
  { rst := false, load := fieldLoad c, next := fieldNext c, seedIn := fieldSeedIn c }

/-- The tick in which the host presents a command in its canonical form (R38). -/
def TickInputs.ofInstr (i : Instr) : TickInputs := .ofCommandWord (encode i)

/-- The tick in which the host requests reset, the ignored inputs at 0 (R38 `RESET`, R73). -/
def TickInputs.reset : TickInputs := { rst := true, load := false, next := false, seedIn := 0 }

/-- The ports of a host event (R82). -/
def HostEvent.inputs : HostEvent → TickInputs
  | .reset => .reset
  | .command i => .ofInstr i

/-- A number read as a command word; a number of more than 34 bits is rejected by name (log 7). -/
def decodeNat (w : Nat) : Except DecodeReject Instr :=
  if w < 2 ^ 34 then .ok (decode (BitVec.ofNat 34 w)) else .error .widerThanCommandWord

/-- The instruction the decoder reads from the low `nbits` bits of `w`, every higher bit 0. A command is one 34-bit word,
never split into bytes (R25), so the word's bit `i` is `CMD[i]`. -/
def decodeTableWord (nbits w : Nat) : Option Instr :=
  match decodeNat (w % 2 ^ nbits) with
  | .ok i => some i
  | .error _ => none

end Sys2Proof
end

