-- ==== Sys2Proof/Machine/State.lean ====
section
/-! DEFINITION. The block's state (R10, R16) and its environment in a run (R82), the reset value (R18), and the reasons a step can stop. -/

namespace Sys2Proof.Machine

/-- The faults: none. The set of exception causes is empty (R64), so nothing raises one and the type has no
constructor. -/
inductive Fault where
  deriving DecidableEq, Repr

/-- The reasons a step is not taken. -/
inductive Refusal where
  /-- Raised by an arm of `exec` for an instruction that has no meaning yet: by none here. Safe: the model stops. -/
  | notModelled (mnemonic : String)
  /-- Raised by `step` alone, when the host's list of events is exhausted: there the run has ended (R82; log 2). No
  command raises it. Safe: the model stops where a chip goes on with whatever its host drives. -/
  | endOfRun
  deriving DecidableEq, Repr

/-- The block's state type: exactly 32 bits (R6, R16). Every function of the block alone (`blockExec`, `blockTick`,
`runBlock`, the ports, `wires`) is over this type. -/
abbrev BlockState := Word

/-- The block's surroundings, which are not state of the block (R6 "what is not state", R17): what the host is going to drive
and what it has captured. The form of `Host.Core`, whose step takes one value and answers one, is why they stand beside
the register (log 1). No function of the block reads them. -/
structure Environment where
  /-- The inputs the host drives in the ticks to come, oldest first: the host's finite list of events (R30, R82). -/
  pending : List TickInputs
  /-- The responses the host captured, each in its own tick (R78), oldest first: the result of a run (R82). -/
  responses : List Response
  deriving DecidableEq, Repr

/-- What a run carries from step to step: the block, whose whole state is the register `S` (R10, R16), in its
environment. -/
structure State extends Environment where
  /-- The state register, `x[0]` (R10): all the state of the block. -/
  S : BlockState
  deriving DecidableEq, Repr

/-- The machine right after reset (R18): the register holds the default seed; a run's list is not placed yet (log 3). -/
def State.reset : State := { S := 0x00000000#32, pending := [], responses := [] }

/-- The machine when the power or clock of the instance `unit` came up for the `n`-th time, before any reset: `S` is a free
value (U4, U10; log 5). -/
def State.powerUp (unit n : Nat) : State := { S := Config.powerUpS unit n, pending := [], responses := [] }

end Sys2Proof.Machine
end

