-- ==== Sys2Proof/Machine/Flags.lean ====
section
/-! DEFINITION. Flags: there are none (R14). No command produces a carry, overflow, zero or sign indication: the carry of
the addition and the high half of the product are discarded and not latched (R43, R46, R49). This file stands for that
answer and defines nothing. -/
end

