-- ==== Sys2Proof/Machine/Operands.lean ====
section
/-! DEFINITION. The operands of the commands: the one register, read here (R12) and written by `commit` of Ops.lean
(R11) and nowhere else. The only explicit operand, the seed of `SEED`, is the field `fieldSeedIn` of Decode.lean (R35). -/

namespace Sys2Proof.Machine

/-- `S` read (`x[0]`, R12): the value before the command (R22). -/
def State.readS (s : State) : BlockState := s.S

end Sys2Proof.Machine
end

