-- ==== Sys2Proof/Machine/Ops.lean ====
section
/-! DEFINITION. The operations the commands share: the three datapath functions and what they are made of (41_step.md),
what a tick does to the state, the tick's reset, and taking the next tick's inputs from the host. The block has no memory
(R20) and no exception to take or return from (R64, R67, R68), so no operation for those exists. -/

namespace Sys2Proof.Machine

/-- A Weyl step at any width: `x <- (x + c) mod 2^n` (R43 at 32 bits; R56 for a reduced width, which is no hardware). -/
def weylAdd {n : Nat} (c x : BitVec n) : BitVec n := x + c

/-- `weyl_inc` (R43). -/
def weylInc (x : Word) : Word := weylAdd Config.inc x

/-- `rotl32(v, k)` of the spec's notation (00_scope section 6), for `0 <= k <= 31`. -/
def rotl32 (v : Word) (k : Nat) : Word := if k = 0 then v else (v <<< k) ||| (v >>> (32 - k))

/-- Rotate right by `k`, `0 <= k <= 31`: what R45 compares with the left rotate. -/
def rotr32 (v : Word) (k : Nat) : Word := if k = 0 then v else (v >>> k) ||| (v <<< (32 - k))

/-- `rotl16` (R44): the two halves exchanged, `{ x[15:0], x[31:16] }`. -/
def rotl16 (x : Word) : Word := x.extractLsb' 0 16 ++ x.extractLsb' 16 16

/-- `mul32` (R46): the low 32 bits of the product. -/
def mul32 (a b : Word) : Word := a * b

/-- `mixer` (R47): the word times its own rotation. -/
def mixer (x : Word) : Word := mul32 x (rotl16 x)

/-- `fold` (R48): the word exclusive-ored with itself shifted right by 16, zeros entering (C2). -/
def fold (x : Word) : Word := x ^^^ (x >>> Config.shr)

/-- `out(w) = fold(mixer(w))` (R55): the output word of the incremented state `w`. -/
def outWord (w : Word) : Word := fold (mixer w)

/-- The Transition Function, a pure mapping of the state to the new state and the output (R6, R50; C3). -/
def transition (x : Word) : Word × Word := (weylInc x, outWord (weylInc x))

/-- The end of a tick: the block's register is `v` (R11, all 32 bits, R21), and the host captures the tick's response `r`
(R6, R31, R78). The block itself retains no response (R16). -/
def State.commit (s : State) (v : BlockState) (r : Response) : State :=
  { S := v, pending := s.pending, responses := s.responses ++ [r] }

/-- A function of the block's 32 bits (R6: new register value, response) run as one tick of the machine. -/
def State.runBlockFunction (s : State) (f : BlockState → BlockState × Response) : State :=
  s.commit (f s.readS).1 (f s.readS).2

/-- The reset of the block (R6, R73): the default seed, no response. -/
def blockReset (_ : BlockState) : BlockState × Response := (Config.seedDefault, none)

/-- The tick with `rst = 1` (R73). What the host captured before stays with the host. -/
def State.takeReset (s : State) : State := s.runBlockFunction blockReset

/-- The next tick's inputs, and the state in which that tick's command executes: none when the host's list is exhausted
(R24, R82). -/
def State.takeTick (s : State) : Option (TickInputs × State) :=
  match s.pending with
  | [] => none
  | t :: ts => some (t, { s with pending := ts })

/-- A tick's inputs placed in front of those the host still has to present. -/
def State.present (s : State) (t : TickInputs) : State := { s with pending := t :: s.pending }

end Sys2Proof.Machine
end

