-- ==== Sys2Proof/Machine/StateRegister.lean ====
section
/-! DEFINITION. The commands that concern the state register alone: `HOLD` and `SEED` (40_seed_hold.md). -/

namespace Sys2Proof.Machine

/-- `HOLD` on the block's 32 bits (R41, R6): reads nothing, writes nothing, no response. -/
def blockHold (S : BlockState) : BlockState × Response := (S, none)

/-- `SEED v` on the block's 32 bits (R40, R6): `S <- v`, no conversion, no mixing, no response. -/
def blockSeed (v : Word) (_ : BlockState) : BlockState × Response := (v, none)

/-- `HOLD` (R41). -/
def execHold (s : State) : Host.Outcome State Fault Refusal := .next (s.runBlockFunction blockHold)

/-- `SEED v` (R40). -/
def execSeed (v : Word) (s : State) : Host.Outcome State Fault Refusal := .next (s.runBlockFunction (blockSeed v))

end Sys2Proof.Machine
end

