-- ==== Sys2Proof/Machine/StepCommand.lean ====
section
/-! DEFINITION. The computing command: `STEP` (41_step.md). -/

namespace Sys2Proof.Machine

/-- `STEP` on the block's 32 bits (R50, R6): the transition function on the old `S`; the stored state is the incremented
value, before the mixing, and the output word is the response. -/
def blockStep (S : BlockState) : BlockState × Response := ((transition S).1, some (transition S).2)

/-- `STEP` (R50). -/
def execStep (s : State) : Host.Outcome State Fault Refusal := .next (s.runBlockFunction blockStep)

end Sys2Proof.Machine
end

