-- ==== Sys2Proof/Machine/Dispatch.lean ====
section
/-! DEFINITION. One arm per command. -/

namespace Sys2Proof.Machine

def exec (i : Instr) (s : State) : Host.Outcome State Fault Refusal :=
  match i with
  | .hold => Sys2Proof.Machine.execHold s
  | .step => Sys2Proof.Machine.execStep s
  | .seed v => Sys2Proof.Machine.execSeed v s

end Sys2Proof.Machine
end

