-- ==== Sys2Proof/Machine/Tick.lean ====
section
/-! DEFINITION. What one tick does with its inputs: the priority of reset over the commands (R66). -/

namespace Sys2Proof.Machine

/-- The tick with inputs `t` (R66): reset when `rst` is driven, whatever the command inputs are (R73); else the command
that the three command inputs decode to. -/
def tick (t : TickInputs) (s : State) : Host.Outcome State Fault Refusal :=
  if t.rst then .next s.takeReset else exec (decode t.cmd) s

end Sys2Proof.Machine
end

