-- ==== Sys2Proof/Machine/Step.lean ====
section
/-! DEFINITION. One step of the machine: one tick (R24, R82); and how the host places one command word in front. -/

namespace Sys2Proof.Machine

/-- One step: the next tick of the host's list is taken. With the list exhausted the run has ended (R82; log 2). -/
def step (s : State) : Host.Outcome State Fault Refusal :=
  match s.takeTick with
  | none => .refused .endOfRun
  | some (t, s') => tick t s'

/-- `s` with the command word `w` (its low `nbits` bits, at most 34 of them) presented in the very next tick, with no
reset. It stands for the host's loading of its list (log 3). -/
def State.withFetchWord (s : State) (nbits w : Nat) : State :=
  s.present (.ofCommandWord (BitVec.ofNat 34 (w % 2 ^ nbits)))

end Sys2Proof.Machine
end

