-- ==== Sys2Proof/Machine/Assembler.lean ====
section
/-! DEFINITION. The assembler of R38 and R39: a line of text read, a line expanded into the ticks of the host's list.
The conventions about white space, letter case, empty lines and the names of responses are the model's (log 8). -/

namespace Sys2Proof.Machine

/-- The text before the comment (R38). -/
def stripComment : List Char → List Char
  | [] => []
  | c :: cs => if c = ';' then [] else c :: stripComment cs

/-- White space between words (log 8). -/
def isBlank (c : Char) : Bool := c = ' ' || c = '\t'

/-- The words of a line: `acc` is the word being read, its letters in reverse. -/
def splitWords (acc : List Char) : List Char → List (List Char)
  | [] => if acc.isEmpty then [] else [acc.reverse]
  | c :: cs =>
    if isBlank c then
      if acc.isEmpty then splitWords [] cs else acc.reverse :: splitWords [] cs
    else splitWords (c :: acc) cs

/-- The value of a digit below `base`; both letter cases of a hexadecimal digit (log 8). -/
def digitValue (base : Nat) (c : Char) : Option Nat :=
  let n := c.toNat
  let v :=
    if 48 ≤ n && n ≤ 57 then some (n - 48)
    else if 65 ≤ n && n ≤ 70 then some (n - 55)
    else if 97 ≤ n && n ≤ 102 then some (n - 87)
    else none
  match v with
  | some d => if d < base then some d else none
  | none => none

/-- The digits of a number, most significant first, after the value `acc` read so far. -/
def digitsValue (base acc : Nat) : List Char → Option Nat
  | [] => some acc
  | c :: cs =>
    match digitValue base c with
    | some d => digitsValue base (acc * base + d) cs
    | none => none

/-- An unsigned literal, hexadecimal with `0x` or decimal (R38). At least one digit. -/
def literalValue : List Char → Option Nat
  | '0' :: 'x' :: d :: ds => digitsValue 16 0 (d :: ds)
  | d :: ds => digitsValue 10 0 (d :: ds)
  | [] => none

/-- A line with one literal operand. -/
def withLiteral (mk : Nat → AsmLine) (lit : List Char) : Except AsmError (Option AsmLine) :=
  match literalValue lit with
  | some n => .ok (some (mk n))
  | none => .error .badLiteral

/-- A line of text read (R38, R39). The name of `STEP -> name` is any one word without white space and without `;`, and
duplicates are not looked for (log 8, DESIGN CHOICE: R38 gives a name no form). A line of comment and white space alone holds no command. -/
def parseLine (line : List Char) : Except AsmError (Option AsmLine) :=
  match splitWords [] (stripComment line) with
  | [] => .ok none
  | [m] =>
    if m = "RESET".toList then .ok (some .reset)
    else if m = "HOLD".toList then .ok (some .hold)
    else if m = "STEP".toList then .ok (some (.step none))
    else if m = "NEW".toList then .ok (some .new)
    else if m = "NEXTU32".toList then .ok (some .nextU32)
    else if m = "NOP".toList then .ok (some .nop)
    else .error .unknownLine
  | [m, a] =>
    if m = "SEED".toList then withLiteral .seed a
    else if m = "NEW".toList then withLiteral .newSeed a
    else if m = "SKIP".toList then withLiteral .skip a
    else .error .unknownLine
  | [m, arrow, name] =>
    if m = "STEP".toList ∧ arrow = "->".toList then .ok (some (.step (some name)))
    else .error .unknownLine
  | _ => .error .unknownLine

/-- The host events a line stands for (R38; the expansions of R39). The name of a response is a note for the text's reader and
no part of the command stream: it is dropped here (log 8, DESIGN CHOICE). A literal is in range when the line is well formed. -/
def AsmLine.events : AsmLine → List HostEvent
  | .reset => [.reset]
  | .hold => [.command .hold]
  | .step _ => [.command .step]
  | .seed imm => [.command (.seed (BitVec.ofNat 32 imm))]
  | .new => [.command (.seed Config.seedDefault)]
  | .newSeed imm => [.command (.seed (BitVec.ofNat 32 imm))]
  | .nextU32 => [.command .step]
  | .skip k => List.replicate k (.command .step)
  | .nop => [.command .hold]

/-- A line assembled: an out-of-range literal is an error and is not wrapped (R38). -/
def assembleLine (l : AsmLine) : Except AsmError (List TickInputs) :=
  if l.wellFormed then .ok ((AsmLine.events l).map HostEvent.inputs) else .error .literalOutOfRange

/-- A text assembled, line by line: the ticks of the whole command stream, or the first error. -/
def assemble : List (List Char) → Except AsmError (List TickInputs)
  | [] => .ok []
  | line :: rest =>
    match parseLine line with
    | .error e => .error e
    | .ok none => assemble rest
    | .ok (some l) =>
      match assembleLine l with
      | .error e => .error e
      | .ok ts =>
        match assemble rest with
        | .error e => .error e
        | .ok us => .ok (ts ++ us)

end Sys2Proof.Machine
end

