-- ==== Sys2Proof/Machine/Block.lean ====
section
/-! DEFINITION. The model of the block alone, exactly as R6 and R16 give it: the state is 32 bits, the step function takes
it and a command to the next 32 bits and a response, and nothing is stored beside them. -/

namespace Sys2Proof.Machine

/-- `exec : (S : bits32, cmd : Command) -> (S' : bits32, resp : none | some bits32)` (R6). -/
def blockExec (S : BlockState) (i : Instr) : BlockState × Response :=
  match i with
  | .hold => blockHold S
  | .step => blockStep S
  | .seed v => blockSeed v S

/-- One tick of the block with all its inputs (R66): reset first, else the command the command inputs decode to. -/
def blockTick (S : BlockState) (t : TickInputs) : BlockState × Response :=
  if t.rst then blockReset S else blockExec S (decode t.cmd)

/-- A run of the block over the host's ticks (R82): its result is the final `S` and the list of responses in order. The
command stream and the responses are arguments and result, not state (R6). -/
def runBlock (S : BlockState) : List TickInputs → BlockState × List Response
  | [] => (S, [])
  | t :: ts =>
    ((runBlock (blockTick S t).1 ts).1, (blockTick S t).2 :: (runBlock (blockTick S t).1 ts).2)

end Sys2Proof.Machine
end

