-- ==== Sys2Proof/Machine/Datapath.lean ====
section
/-! DEFINITION. The structure of R7: the four sub-units and the wires between them, as one combinational network of the
register's output and the tick's inputs. The wire names are the spec's decision D19; the wires are not state (R16). -/

namespace Sys2Proof.Machine

/-- The wires of R7 in one tick, and the value the register takes at its end. -/
structure Wires where
  /-- `state_register`'s output. -/
  q : Word
  /-- `weyl_increment_unit`. -/
  w : Word
  /-- `rotate_multiply_mixer`, the rotated copy. -/
  r : Word
  /-- `rotate_multiply_mixer`, the product. -/
  m : Word
  /-- `xor_fold_output`. -/
  o : Word
  /-- The register's data input: `load ? seed_in : w`. -/
  d : Word
  /-- The register's write enable: `load | next`. -/
  we : Bool
  /-- `out_valid`. -/
  outValid : Bool
  /-- What the register holds after the tick, reset first (R66, R73). -/
  nextS : Word
  deriving DecidableEq, Repr

/-- The network of R7. The mixer and the fold are fed by `w`, never by `q`, and `o` does not return to the register. -/
def wires (S : BlockState) (t : TickInputs) : Wires :=
  let w := weylInc S
  let r := rotl16 w
  let m := mul32 w r
  let d := if t.load then t.seedIn else w
  let we := t.load || t.next
  { q := S, w := w, r := r, m := m, o := fold m, d := d, we := we,
    outValid := t.next && !t.load && !t.rst,
    nextS := if t.rst then Config.seedDefault else if we then d else S }

end Sys2Proof.Machine
end

