-- ==== Sys2Proof/Machine/HostLayer.lean ====
section
/-! DEFINITION. The host layer around the block (45_host_layer.md): software that reaches the block through its commands
alone and holds no copy of its state (R57). It constrains the host and never the block (R3). -/

namespace Sys2Proof.Machine

/-- `nextUint32()` (R58): one `STEP` command, whose response is read in its tick. -/
def nextUint32 (s : State) : Option (Word × State) :=
  match exec .step s with
  | .next t =>
    match t.responses.getLast? with
    | some (some u) => some (u, t)
    | _ => none
  | .fault _ => none
  | .refused _ => none

/-- The value `nextUnitFloat()` makes of an output word (R59): `u / 2^32`, exact, so no rounding enters. -/
def unitFloatValue (u : Word) : ℚ := (u.toNat : ℚ) / 4294967296

/-- `nextUnitFloat()` (R59): one `STEP`. -/
def nextUnitFloat (s : State) : Option (ℚ × State) :=
  match nextUint32 s with
  | some (u, t) => some (unitFloatValue u, t)
  | none => none

/-- The numerator over `2^32` of `nextUnitFloat() * (max - min) + min`, exactly (R60). -/
def rangeNumerator (min max : Int) (u : Word) : Int := u.toNat * (max - min) + min * 4294967296

/-- An integer of at most 53 significant bits: binary64 holds it, and every quotient of it by `2^32`, without rounding. -/
def exactBinary64 (n : Int) : Bool := n.natAbs % 2 ^ (n.natAbs.log2 + 1 - 53) = 0

/-- A 32-bit signed integer. -/
def isInt32 (n : Int) : Bool := -2147483648 ≤ n && n ≤ 2147483647

/-- The integer `n / 2^32` rounded as the host parameter says (R60, D16). -/
def roundQuotient : Config.RangeRounding → Int → Int
  | .truncate, n => Int.tdiv n 4294967296
  | .floor, n => Int.fdiv n 4294967296

/-- The value `nextInRange(min, max)` makes of an output word (R60). None where the source settles nothing (U8; log 9):
bounds that are no int32, `max <= min`, a span that overflows int32, a product or sum that binary64 would round. -/
def rangeValue (rounding : Config.RangeRounding) (min max : Int) (u : Word) : Option Int :=
  if isInt32 min && isInt32 max && decide (min < max) && isInt32 (max - min)
      && exactBinary64 (u.toNat * (max - min)) && exactBinary64 (rangeNumerator min max u)
  then some (roundQuotient rounding (rangeNumerator min max u))
  else none

/-- `nextInRange(min, max)` (R60): one `STEP`. -/
def nextInRange (rounding : Config.RangeRounding) (min max : Int) (s : State) : Option (Int × State) :=
  match nextUint32 s with
  | some (u, t) =>
    match rangeValue rounding min max u with
    | some v => some (v, t)
    | none => none
  | none => none

/-- `coerce32(z) = z mod 2^32` for every integer `z` (R62). -/
def coerce32 (z : Int) : Word := BitVec.ofInt 32 z

/-- The 32 bits a caller's seed argument becomes (R62): omitted is the default seed, an integer wraps, anything else is
the host parameter's, none where it refuses (log 10). -/
def coerceSeed (policy : Config.SeedNonIntPolicy) : Option ℚ → Option Word
  | none => some Config.seedDefault
  | some q =>
    if q.den = 1 then some (coerce32 q.num)
    else match policy with
      | .refuse => none
      | .truncateThenWrap => some (coerce32 (Int.tdiv q.num q.den))

/-- A Sampler Layer or Functional Embodiment constructed (R40, R62): `SEED` with the coerced argument. -/
def construct (policy : Config.SeedNonIntPolicy) (arg : Option ℚ) (s : State) : Option State :=
  match coerceSeed policy arg with
  | none => none
  | some v =>
    match exec (.seed v) s with
    | .next t => some t
    | .fault _ => none
    | .refused _ => none

/-- `n` calls of `nextUint32()` on a Sampler Layer: the words returned, in order, and the state left. -/
def samplerSequence : Nat → State → Option (List Word × State)
  | 0, s => some ([], s)
  | n + 1, s =>
    match nextUint32 s with
    | none => none
    | some (u, t) =>
      match samplerSequence n t with
      | none => none
      | some (us, t') => some (u :: us, t')

/-- One call of the Functional Embodiment (R61): it closes over a word of its own and delegates to the same transition
function as `STEP`. The answer is the output word and the word kept. -/
def callEmbodiment (kept : Word) : Word × Word := ((transition kept).2, (transition kept).1)

/-- `n` invocations of the Functional Embodiment: the words returned, in order, and the word kept. -/
def embodimentSequence : Nat → Word → List Word × Word
  | 0, kept => ([], kept)
  | n + 1, kept =>
    ((callEmbodiment kept).1 :: (embodimentSequence n (callEmbodiment kept).2).1,
      (embodimentSequence n (callEmbodiment kept).2).2)

end Sys2Proof.Machine
end

