-- ==== Sys2Proof/Machine/Ports.lean ====
section
/-! DEFINITION. The output ports, combinational functions of the block's 32 bits and of the inputs of the same tick (R17, R31,
R32). `S` is the register before the tick's command. -/

namespace Sys2Proof.Machine

/-- `out_valid` (R31): 1 exactly in a tick that executes `STEP`. -/
def outValid (t : TickInputs) : Bool := t.next && !t.load && !t.rst

/-- `out_data` (R31): the output word of this `STEP`; while `out_valid = 0` a free value (U3; log 4). -/
def outData (S : BlockState) (t : TickInputs) : Word :=
  if outValid t then outWord (weylInc S) else Config.idleOutData S t.bits

/-- `state_q` (R32): always `S`, before the command of the tick takes effect; no side effect (R12, R23). -/
def stateQ (S : BlockState) : Word := S

/-- The response the host reads off the ports in a tick (R31, R78): `out_data` only while `out_valid = 1`. -/
def portResponse (S : BlockState) (t : TickInputs) : Response :=
  if outValid t then some (outData S t) else none

end Sys2Proof.Machine
end

