-- ==== Sys2Proof/Safety.lean ====
section
/-! DEFINITION. The terms claims use: a run over a stream of ticks (R82), what the host draws from it, the host's duties
(R63, R76), and the invariant every step keeps. -/

namespace Sys2Proof.Machine

/-- The run of R82: from `s`, the host presents exactly the ticks `ts`, one a step. -/
def runStream (s : State) (ts : List TickInputs) : Host.Outcome State Fault Refusal :=
  Host.Core.run Sys2Proof.core ts.length { s with pending := ts }

/-- The output words the host was given, in order: the responses that are words (R82, R31). -/
def State.outputs (s : State) : List Word := s.responses.filterMap id

/-- A tick that gives `S` a value that does not depend on the old one: reset or `SEED` (R11). -/
def initialises (t : TickInputs) : Bool := t.rst || t.load

/-- The host's duty of R76: one reset tick or one `SEED` before the first `STEP`. -/
def hostInitialises : List TickInputs → Bool
  | [] => true
  | t :: ts => initialises t || (!t.next && hostInitialises ts)

/-- What every state reached by steps says of its record of responses: each word in it is the output of some incremented
state (R50), and if the last tick gave a word, that word is the output of the state now stored (R55, R79). -/
def State.TranscriptInv (s : State) : Prop :=
  (∀ o, some o ∈ s.responses → ∃ w, o = outWord w) ∧
  (∀ o, s.responses.getLast? = some (some o) → o = outWord s.S)

end Sys2Proof.Machine
end

