-- ==== Sys2Proof/Certificates/Slice0/Obligations.lean ====
section
/-! DEFINITION. The statements for the provers. Each docstring names the rule of spec/ it formalises; where a clause is the
spec's own inference (a sentence it marks as derived) or the model's choice, the docstring says so. -/

open Sys2Proof Sys2Proof.Machine

/-! ## Reset and the state -/

/-- R18: the complete reset state is `S = 0`; and a reset tick completes and reaches that value from every state. -/
def Obligations.ResetStateHoldsDefaultSeed : Prop :=
  State.reset.S = 0x00000000#32 ∧ ∀ s : State, ∃ t, step (s.present .reset) = .next t ∧ t.S = State.reset.S

/-! ## The datapath functions -/

/-- R43, without its remark marked as derived (that is WeylIncWrapsExactlyAboveLimit): the addition modulo `2^32`, and
the rule's five examples. -/
def Obligations.WeylIncAddsIncModulo : Prop :=
  (∀ x : Word, (weylInc x).toNat = (x.toNat + 0x9E3779B9) % 2 ^ 32) ∧
  weylInc 0x00000000#32 = 0x9E3779B9#32 ∧ weylInc 0x9E3779B9#32 = 0x3C6EF372#32 ∧
  weylInc 0x61C88646#32 = 0xFFFFFFFF#32 ∧ weylInc 0x61C88647#32 = 0x00000000#32 ∧
  weylInc 0xFFFFFFFF#32 = 0x9E3779B8#32

/-- The equivalent form of `weyl_inc` in 41_step.md section 1, a sentence the spec marks as derived: no wrap up to
`0x61C88646`, a wrap above. -/
def Obligations.WeylIncWrapsExactlyAboveLimit : Prop :=
  ∀ x : Word,
    (x.toNat ≤ 0x61C88646 → (weylInc x).toNat = x.toNat + 2654435769) ∧
    (0x61C88646 < x.toNat → (weylInc x).toNat + 1640531527 = x.toNat)

/-- R44: the halves exchanged, as the notation's rotate, as a concatenation, bit by bit, as arithmetic; the examples. -/
def Obligations.Rotl16ExchangesHalves : Prop :=
  (∀ x : Word, rotl16 x = rotl32 x 16 ∧ rotl16 x = x.extractLsb' 0 16 ++ x.extractLsb' 16 16 ∧
    (∀ i < 16, (rotl16 x).getLsbD (i + 16) = x.getLsbD i ∧ (rotl16 x).getLsbD i = x.getLsbD (i + 16)) ∧
    (rotl16 x).toNat = (x.toNat * 2 ^ 16) % 2 ^ 32 + x.toNat / 2 ^ 16) ∧
  rotl16 0x12345678#32 = 0x56781234#32 ∧ rotl16 0x00000001#32 = 0x00010000#32 ∧
  rotl16 0x80000000#32 = 0x00008000#32 ∧ rotl16 0xFFFF0000#32 = 0x0000FFFF#32 ∧
  rotl16 0x9E3779B9#32 = 0x79B99E37#32

/-- R45, its first sentence: left and right rotate by 16 coincide, and the block's rotate is either. -/
def Obligations.RotatesBy16Coincide : Prop :=
  ∀ x : Word, rotl32 x 16 = rotr32 x 16 ∧ rotl16 x = rotl32 x 16 ∧ rotl16 x = rotr32 x 16

/-- 41_step.md section 2, a sentence the spec marks as derived: the rotate is an involution, its fixed points are the
words with equal halves, one for every half. -/
def Obligations.Rotl16InvolutionAndFixedPoints : Prop :=
  ∀ x : Word, rotl16 (rotl16 x) = x ∧
    (rotl16 x = x ↔ x.extractLsb' 16 16 = x.extractLsb' 0 16) ∧
    (rotl16 x = x ↔ ∃! h : BitVec 16, x = h ++ h)

/-- R46, without its remark from general knowledge (that is Mul32SameUnderSignedReading): the low 32 bits of the full
product, and the rule's five examples. -/
def Obligations.Mul32KeepsLow32Bits : Prop :=
  (∀ a b : Word, (mul32 a b).toNat = (a.toNat * b.toNat) % 2 ^ 32) ∧
  mul32 0xFFFFFFFF#32 0xFFFFFFFF#32 = 0x00000001#32 ∧ mul32 0x00010000#32 0x00010000#32 = 0x00000000#32 ∧
  mul32 0x80000000#32 0x00000002#32 = 0x00000000#32 ∧ mul32 0x80000000#32 0x00000003#32 = 0x80000000#32 ∧
  mul32 0x9E3779B9#32 0x79B99E37#32 = 0xA2BC54BF#32

/-- 41_step.md section 2, a remark the spec marks as general knowledge: reading the factors as signed words gives the
same bits. -/
def Obligations.Mul32SameUnderSignedReading : Prop :=
  ∀ a b : Word, mul32 a b = BitVec.ofInt 32 (a.toInt * b.toInt)

/-- R47: the word times its own rotation modulo `2^32`, and the rule's nine examples. -/
def Obligations.MixerIsProductWithOwnRotation : Prop :=
  (∀ x : Word, mixer x = mul32 x (rotl16 x) ∧ (mixer x).toNat = (x.toNat * (rotl16 x).toNat) % 2 ^ 32) ∧
  mixer 0x00000000#32 = 0x00000000#32 ∧ mixer 0x00000001#32 = 0x00010000#32 ∧
  mixer 0x00010000#32 = 0x00010000#32 ∧ mixer 0x00010001#32 = 0x00020001#32 ∧
  mixer 0xFFFFFFFF#32 = 0x00000001#32 ∧ mixer 0x80000000#32 = 0x00000000#32 ∧
  mixer 0x80008000#32 = 0x40000000#32 ∧ mixer 0x12345678#32 = 0x38F60060#32 ∧
  mixer 0x9E3779B9#32 = 0xA2BC54BF#32

/-- R48: exclusive or with the logical shift; in halves, the high half unchanged and the low half mixed; the examples,
`0x80000000` among them, where an arithmetic shift would differ. -/
def Obligations.FoldMixesHighHalfIntoLow : Prop :=
  (∀ x : Word, fold x = x ^^^ BitVec.ofNat 32 (x.toNat / 2 ^ 16) ∧
    fold x = x.extractLsb' 16 16 ++ (x.extractLsb' 0 16 ^^^ x.extractLsb' 16 16) ∧
    (x.msb = true → fold x ≠ x ^^^ x.sshiftRight 16)) ∧
  fold 0x80000000#32 = 0x80008000#32 ∧ fold 0x00000000#32 = 0x00000000#32 ∧
  fold 0xFFFFFFFF#32 = 0xFFFF0000#32 ∧ fold 0xFFFF0000#32 = 0xFFFFFFFF#32 ∧
  fold 0x00010000#32 = 0x00010001#32 ∧ fold 0x12345678#32 = 0x1234444C#32 ∧
  fold 0xA2BC54BF#32 = 0xA2BCF603#32

/-- 41_step.md section 6, the half-word form of the mixer, which the spec marks as derived. -/
def Obligations.MixerHalfWordForm : Prop :=
  ∀ x : Word,
    let xh := (x.extractLsb' 16 16).toNat
    let xl := (x.extractLsb' 0 16).toNat
    (mixer x).toNat = (xh * xl + ((xh ^ 2 + xl ^ 2) % 2 ^ 16) * 2 ^ 16) % 2 ^ 32

/-- 41_step.md section 6, the properties of `out(w) = fold(mixer(w))`, which the spec marks as derived: the mixer does
not see a rotation, `fold` is its own inverse, so `out` collides, and some word is the output of no state. -/
def Obligations.OutputMapIsNotOnto : Prop :=
  (∀ x : Word, mixer (rotl16 x) = mixer x ∧ fold (fold x) = x ∧ outWord (rotl16 x) = outWord x) ∧
  outWord 0x00000001#32 = 0x00010001#32 ∧ outWord 0x00010000#32 = 0x00010001#32 ∧
  outWord 0x00000000#32 = 0x00000000#32 ∧ outWord 0x80000000#32 = 0x00000000#32 ∧
  ∃ y : Word, ∀ w : Word, outWord w ≠ y

/-! ## Decode and encode -/

/-- R33 and R34: the command word is `{load, next, seed_in}`; the three rows' mask and match partition all words; each
row's words decode to its command. The bit positions are the spec's decision D3. -/
def Obligations.CommandWordsPartitionIntoThreeRows : Prop :=
  (∀ t : TickInputs, t.cmd.getLsbD 33 = t.load ∧ t.cmd.getLsbD 32 = t.next ∧ t.cmd.extractLsb' 0 32 = t.seedIn) ∧
  ∀ c : CommandWord,
    (c &&& 0x300000000#34 = 0x000000000#34 ∧ c &&& 0x200000000#34 ≠ 0x200000000#34 ∧ decode c = .hold) ∨
    (c &&& 0x300000000#34 = 0x100000000#34 ∧ c &&& 0x200000000#34 ≠ 0x200000000#34 ∧ decode c = .step) ∨
    (c &&& 0x200000000#34 = 0x200000000#34 ∧ c &&& 0x300000000#34 ≠ 0x000000000#34 ∧
      c &&& 0x300000000#34 ≠ 0x100000000#34 ∧ decode c = .seed (c.extractLsb' 0 32))

/-- R36: no word is illegal and none stops; `load` and `next` together are `SEED` with no step; the operand bits of `HOLD`
and `STEP` do not matter. The choice for `load = next = 1` is the spec's decision D4. -/
def Obligations.EveryCommandWordRunsAndLoadWins : Prop :=
  (∀ (c : CommandWord) (s : State), ∃ t, exec (decode c) s = .next t) ∧
  (∀ (v : Word) (nx : Bool), decode ((BitVec.ofBool true ++ BitVec.ofBool nx) ++ v) = .seed v) ∧
  (∀ v : Word, decode ((BitVec.ofBool false ++ BitVec.ofBool true) ++ v) = .step) ∧
  (∀ v : Word, decode ((BitVec.ofBool false ++ BitVec.ofBool false) ++ v) = .hold) ∧
  ∀ (s : State) (v : Word), ∃ t,
    step (s.present { rst := false, load := true, next := true, seedIn := v }) = .next t ∧
    t.S = v ∧ t.responses = s.responses ++ [none] ∧
    outValid { rst := false, load := true, next := true, seedIn := v } = false

/-- R35: the operand of `SEED` is `CMD[31:0]` as it stands, bit for bit, from the port to the register. -/
def Obligations.SeedOperandTakenAsItStands : Prop :=
  (∀ c : CommandWord, c.getLsbD 33 = true →
    ∃ v : Word, decode c = .seed v ∧ ∀ i < 32, v.getLsbD i = c.getLsbD i) ∧
  ∀ (s : State) (t : TickInputs), t.rst = false → t.load = true →
    ∃ u, step (s.present t) = .next u ∧ u.S = t.seedIn

/-- Decoding the encoded word of every command, with every operand, gives the command back, and so does the road over
the input ports and over the numbers of spec/opcode_table.json. -/
def Obligations.DecodeOfEncodeIsIdentity : Prop :=
  ∀ i : Instr, i.wellFormed = true →
    decode (encode i) = i ∧ (TickInputs.ofInstr i).cmd = encode i ∧ decode (TickInputs.ofInstr i).cmd = i ∧
    decodeTableWord 34 (encode i).toNat = some i

/-- Encoding what a word decodes to gives the word with the ignored bits cleared; so two words mean the same exactly when
they agree on the bits that are not ignored; and that word is unchanged by clearing them again. -/
def Obligations.EncodeOfDecodeIsCanonical : Prop :=
  (∀ c : CommandWord, encode (decode c) = canonical c ∧ canonical (canonical c) = canonical c) ∧
  ∀ c c' : CommandWord, decode c = decode c' ↔ canonical c = canonical c'

/-- Words of the decode table of 95_test_vectors.md section 5.1, written out, decode to the commands they stand for. -/
def Obligations.TableWordsDecode : Prop :=
  decode 0x000000000#34 = .hold ∧ decode 0x0CAFEF00D#34 = .hold ∧
  decode 0x100000000#34 = .step ∧ decode 0x1DEADBEEF#34 = .step ∧
  decode 0x200000000#34 = .seed 0x00000000#32 ∧ decode 0x212345678#34 = .seed 0x12345678#32 ∧
  decode 0x312345678#34 = .seed 0x12345678#32 ∧ decode 0x3FFFFFFFF#34 = .seed 0xFFFFFFFF#32

/-! ## The commands: result and frame -/

/-- R41: `HOLD` answers a next state that differs in nothing but the tick's empty response. -/
def Obligations.HoldKeepsState : Prop :=
  ∀ s : State, exec .hold s = .next { S := s.S, pending := s.pending, responses := s.responses ++ [none] }

/-- R40: `SEED v` stores `v` itself, whatever `S` was, answers no response and touches nothing else; the next `STEP` stores
`v + INC` and returns the output derived from it; `SEED 0` gives the reset value. -/
def Obligations.SeedLoadsOperand : Prop :=
  (∀ (s : State) (v : Word),
    exec (.seed v) s = .next { S := v, pending := s.pending, responses := s.responses ++ [none] } ∧
    ∃ t u, exec (.seed v) s = .next t ∧ exec .step t = .next u ∧ u.S = v + 0x9E3779B9#32 ∧
      u.responses = s.responses ++ [none, some (fold (mixer (v + 0x9E3779B9#32)))]) ∧
  ∀ s : State, ∃ t, exec (.seed 0x00000000#32) s = .next t ∧ t.S = State.reset.S

/-- R50: `STEP` by the rule's pseudocode, wire by wire: `w` is stored, `o` is the response, nothing else changes. -/
def Obligations.StepStoresWeylValueAndAnswersOutput : Prop :=
  ∀ s : State,
    let w : Word := s.S + 0x9E3779B9#32
    let r : Word := w.extractLsb' 0 16 ++ w.extractLsb' 16 16
    let m : Word := w * r
    let o : Word := m ^^^ (m >>> 16)
    exec .step s = .next { S := w, pending := s.pending, responses := s.responses ++ [some o] }

/-- The corner cases of `STEP` in 41_step.md section 5, a table the spec marks as derived: the register and the response
of a `STEP` from each of the eight states. -/
def Obligations.StepCornerCases : Prop :=
  ∀ row ∈ [(0x00000000#32, 0x9E3779B9#32, 0xA2BCF603#32), (0x9E3779B9#32, 0x3C6EF372#32, 0x977FC583#32),
      (0x61C88647#32, 0x00000000#32, 0x00000000#32), (0x61C88646#32, 0xFFFFFFFF#32, 0x00000001#32),
      (0xFFFFFFFF#32, 0x9E3779B8#32, 0xAF4A19C2#32), (0x80000000#32, 0x1E3779B9#32, 0x65DFB160#32),
      (0xE1C88647#32, 0x80000000#32, 0x00000000#32), (0xE1C90647#32, 0x80008000#32, 0x40004000#32)],
    ∀ (pending : List TickInputs) (responses : List Response),
      exec .step { S := row.1, pending := pending, responses := responses } =
        .next { S := row.2.1, pending := pending, responses := responses ++ [some row.2.2] }

/-- R23, the table's last three rows: `HOLD` and `SEED v` are idempotent on the register; `STEP` is not: it moves every
state, and twice is not once. -/
def Obligations.OnlyStepIsNotIdempotent : Prop :=
  ∀ s : State,
    (∃ t u, exec .hold s = .next t ∧ exec .hold t = .next u ∧ t.S = s.S ∧ u.S = t.S) ∧
    (∀ v, ∃ t u, exec (.seed v) s = .next t ∧ exec (.seed v) t = .next u ∧ t.S = v ∧ u.S = t.S) ∧
    (∃ t u, exec .step s = .next t ∧ exec .step t = .next u ∧ t.S = s.S + 0x9E3779B9#32 ∧ t.S ≠ s.S ∧ u.S ≠ t.S)

/-- R8 and R16, in the model's terms: for every command and every register value there is one new register value and one
response, the same in every state with that register: neither the host's list nor the responses given before matter. -/
def Obligations.CommandDependsOnRegisterAlone : Prop :=
  ∀ (i : Instr) (S : Word), ∃! p : Word × Response, ∀ (pending : List TickInputs) (responses : List Response),
    exec i { S := S, pending := pending, responses := responses }
      = .next { S := p.1, pending := pending, responses := responses ++ [p.2] }

/-- R6, its step function: `blockExec` on the block's 32 bits, one equation a command, and the reset; and `exec` is that
function and nothing more: the register becomes its first component, the host captures the second, nothing else
changes. That the host's list and record stand beside the register is the form of the host's interface (log 1). -/
def Obligations.ExecIsBlockStepFunction : Prop :=
  (∀ S : BlockState,
    blockExec S .hold = (S, none) ∧
    blockExec S .step = (weylInc S, some (fold (mixer (weylInc S)))) ∧
    (∀ v, blockExec S (.seed v) = (v, none)) ∧
    blockReset S = (0x00000000#32, none)) ∧
  (∀ (i : Instr) (s : State), exec i s = .next
    { S := (blockExec s.S i).1, pending := s.pending, responses := s.responses ++ [(blockExec s.S i).2] }) ∧
  ∀ (t : TickInputs) (s : State), step (s.present t) = .next
    { S := (blockTick s.S t).1, pending := s.pending, responses := s.responses ++ [(blockTick s.S t).2] }

/-! ## One tick, one step -/

/-- A step runs the decoded instruction: with a tick that is no reset at the head of the host's list, `step` is `exec` of
the command its inputs decode to, in the state with that tick taken off the list; the same for a command presented in
canonical form and for a table word placed by `withFetchWord`. The list is the model's form of the host (log 1, log 3). -/
def Obligations.StepRunsDecodedCommand : Prop :=
  (∀ (s : State) (t : TickInputs) (ts : List TickInputs), t.rst = false →
    step { s with pending := t :: ts } = exec (decode t.cmd) { s with pending := ts }) ∧
  (∀ (s : State) (i : Instr), i.wellFormed = true → step (s.present (.ofInstr i)) = exec i s) ∧
  ∀ (s : State) (nbits w : Nat) (i : Instr), decodeTableWord nbits w = some i →
    step (s.withFetchWord nbits w) = exec i s

/-- R66: the fixed priority of `rst`, `load`, `next`; exactly one of the four arms in every tick. The priority is the
spec's decisions D4 and D5. -/
def Obligations.ResetThenLoadThenNextPriority : Prop :=
  ∀ (s : State) (t : TickInputs),
    step (s.present t) =
      if t.rst then .next { S := 0x00000000#32, pending := s.pending, responses := s.responses ++ [none] }
      else if t.load then .next { S := t.seedIn, pending := s.pending, responses := s.responses ++ [none] }
      else if t.next then .next
        { S := s.S + 0x9E3779B9#32
          pending := s.pending
          responses := s.responses ++ [some (fold (mixer (s.S + 0x9E3779B9#32)))] }
      else .next { S := s.S, pending := s.pending, responses := s.responses ++ [none] }

/-- R73: a tick with `rst = 1` stores 0 and returns no response, whatever `load`, `next` and `seed_in` are. The value is
the spec's decision D5. -/
def Obligations.ResetTickIgnoresCommandInputs : Prop :=
  ∀ (s : State) (load next : Bool) (seedIn : Word),
    step (s.present { rst := true, load := load, next := next, seedIn := seedIn }) =
      .next { S := 0x00000000#32, pending := s.pending, responses := s.responses ++ [none] } ∧
    portResponse s.S { rst := true, load := load, next := next, seedIn := seedIn } = none

/-- 70_reset_and_hazards.md section 1, what the spec marks as derived: a reset tick and a `SEED 0` leave the same state;
reset is idempotent; after either the next `STEP` stores `0x9E3779B9` and returns `0xA2BCF603`. -/
def Obligations.ResetEqualsSeedZero : Prop :=
  ∀ s : State,
    step (s.present .reset) = step (s.present (.ofInstr (.seed 0x00000000#32))) ∧
    (∃ t, step (s.present .reset) = .next t ∧ step (t.present .reset) = .next { t with responses := t.responses ++ [none] } ∧
      ∃ u, step (t.present (.ofInstr .step)) = .next u ∧ u.S = 0x9E3779B9#32 ∧
        u.responses = s.responses ++ [none, some 0xA2BCF603#32])

/-- A step completes exactly when the host still has an event to present, and no step faults (70_reset_and_hazards.md
section 5, 60_exceptions.md section 1). That the exhausted list is a refusal by name is the model's choice (log 2). -/
def Obligations.StepCompletesIffEventPending : Prop :=
  ∀ s : State,
    ((∃ t, step s = .next t) ↔ s.pending ≠ []) ∧
    (step s = .refused .endOfRun ↔ s.pending = []) ∧
    ∀ r, step s ≠ .fault r

/-- R24 in the model's terms: a step takes the oldest tick of the host's list and gives exactly one response, in order:
nothing is buffered, reordered, merged or dropped, and no earlier response changes. -/
def Obligations.StepTakesOneTickGivesOneResponse : Prop :=
  ∀ s t : State, step s = .next t →
    ∃ u us, s.pending = u :: us ∧ t.pending = us ∧ t.responses = s.responses ++ [portResponse s.S u]

/-- R31: `out_valid` is 1 exactly in a tick that executes `STEP`; then `out_data` is the output word of the state before the
command, and it is the response; else there is no response. The ports are the spec's decisions D2 and D6. -/
def Obligations.OutputPortsCarryTheResponse : Prop :=
  ∀ (s : State) (t : TickInputs),
    outValid t = (t.next && !t.load && !t.rst) ∧
    (outValid t = true ↔ t.rst = false ∧ decode t.cmd = .step) ∧
    (outValid t = true → outData s.S t = fold (mixer (weylInc s.S))) ∧
    ∃ u, step (s.present t) = .next u ∧
      u.responses = s.responses ++ [if outValid t then some (outData s.S t) else none]

/-- R32: `state_q` is `S` before the command of the tick; in the tick after a `STEP` it shows the incremented, pre-mixing
value, and in the tick after any other command what that command stored. The port is the spec's decision D7. -/
def Obligations.ObservationPortShowsRegister : Prop :=
  ∀ s : State, stateQ s.S = s.S ∧
    (∃ t, exec .step s = .next t ∧ stateQ t.S = s.S + 0x9E3779B9#32) ∧
    (∃ t, exec .hold s = .next t ∧ stateQ t.S = stateQ s.S) ∧
    ∀ v, ∃ t, exec (.seed v) s = .next t ∧ stateQ t.S = v

/-- R7: the network of sub-units and wires, each wire by its equation, and the step computes the same register value and
the same response as the network does, in every state and for all inputs. The wire names are the spec's decision D19;
the reset on the register is R66's. -/
def Obligations.StructuralDatapathRefinesStep : Prop :=
  (∀ (S : Word) (t : TickInputs),
    let n := wires S t
    n.q = S ∧ n.w.toNat = (n.q.toNat + 0x9E3779B9) % 2 ^ 32 ∧ n.r = rotl16 n.w ∧
    n.m.toNat = (n.w.toNat * n.r.toNat) % 2 ^ 32 ∧ n.o = n.m ^^^ (n.m >>> 16) ∧
    n.d = (if t.load then t.seedIn else n.w) ∧ n.we = (t.load || t.next) ∧
    n.outValid = (t.next && !t.load && !t.rst)) ∧
  ∀ (s : State) (t : TickInputs),
    step (s.present t) = .next
      { S := (wires s.S t).nextS
        pending := s.pending
        responses := s.responses ++ [if (wires s.S t).outValid then some (wires s.S t).o else none] } ∧
    (t.rst = false → (wires s.S t).nextS = if (wires s.S t).we then (wires s.S t).d else s.S)

/-! ## Runs -/

/-- R82: a run over any finite list of the host's events takes exactly one step an event, always ends with the list
exhausted and one response an event, in order after those given before; there is no stuck state. -/
def Obligations.RunTakesEveryHostEvent : Prop :=
  ∀ (s : State) (events : List HostEvent), ∃ t,
    runStream s (events.map HostEvent.inputs) = .next t ∧ t.pending = [] ∧
    ∃ given : List Response, t.responses = s.responses ++ given ∧ given.length = events.length

/-- R16 and R6 over runs: 32 bits are all the state a run needs. The machine's run over any stream of ticks is the block's own
run, which is a function of the register and the stream: it ends with that register, and what the host captures is that list
of responses, whatever it had captured before. The list and the record are the model's form of the host (log 1). -/
def Obligations.RegisterIsTheWholeStateOfARun : Prop :=
  ∀ (s : State) (ts : List TickInputs), runStream s ts = .next
    { S := (runBlock s.S ts).1, pending := [], responses := s.responses ++ (runBlock s.S ts).2 }

/-- R54: after `n` steps from the state `s0`, the state is `(s0 + n * INC) mod 2^32`, and the n-th response was the output
word of it; from any state, and so after `SEED s0`. -/
def Obligations.ClosedFormAfterSteps : Prop :=
  (∀ (s : State) (n : Nat), ∃ t, runStream s (List.replicate n (.ofInstr .step)) = .next t ∧
    t.S.toNat = (s.S.toNat + n * 0x9E3779B9) % 2 ^ 32 ∧
    t.responses = s.responses ++ (List.range n).map
      (fun j => some (fold (mixer (BitVec.ofNat 32 (s.S.toNat + (j + 1) * 0x9E3779B9)))))) ∧
  ∀ (s : State) (s0 : Word) (n : Nat), ∃ t,
    runStream s (.ofInstr (.seed s0) :: List.replicate n (.ofInstr .step)) = .next t ∧
    t.S.toNat = (s0.toNat + n * 0x9E3779B9) % 2 ^ 32 ∧
    t.responses = s.responses ++ none :: (List.range n).map
      (fun j => some (fold (mixer (BitVec.ofNat 32 (s0.toNat + (j + 1) * 0x9E3779B9)))))

/-- The determinism of a seeded run, 40_seed_hold.md section "Determinism of a seeded run", which the spec marks as
derived: after the last `SEED v` of a stream, in any encoding, with no reset after it and holds anywhere, the state and
the words drawn are functions of `v` and of the number of `STEP`s alone, whatever happened before. -/
def Obligations.SeedErasesHistory : Prop :=
  ∀ (s : State) (before after : List TickInputs) (v : Word) (nx : Bool),
    (∀ t ∈ after, t.rst = false ∧ t.load = false) →
    ∃ t, runStream s (before ++ { rst := false, load := true, next := nx, seedIn := v } :: after) = .next t ∧
      t.S.toNat = (v.toNat + after.countP outValid * 0x9E3779B9) % 2 ^ 32 ∧
      (t.responses.drop (s.responses.length + before.length)).filterMap id =
        (List.range (after.countP outValid)).map
          (fun j => outWord (BitVec.ofNat 32 (v.toNat + (j + 1) * 0x9E3779B9)))

/-- R53: the state has full period `2^32`: `k > 0` steps return to the start exactly when `2^32` divides `k`, and every state
is visited by exactly one of the first `2^32` counts. -/
def Obligations.StateHasFullPeriod : Prop :=
  ∀ s : State,
    (∀ k : Nat, (∃ t, runStream s (List.replicate k (.ofInstr .step)) = .next t ∧ t.S = s.S) ↔ 2 ^ 32 ∣ k) ∧
    ∀ v : Word, ∃! k : Nat, k < 2 ^ 32 ∧
      ∃ t, runStream s (List.replicate k (.ofInstr .step)) = .next t ∧ t.S = v

/-- 41_step.md section 6, what the spec says of reduced-width models and marks as derived: at any width and with any odd
increment, the Weyl step visits every value exactly once a period. A test device, not this hardware (R4). -/
def Obligations.ReducedWidthWeylStepHasFullPeriod : Prop :=
  ∀ (n : Nat) (c x : BitVec n), 1 ≤ n → c.toNat % 2 = 1 →
    (weylAdd c)^[2 ^ n] x = x ∧ ∀ y : BitVec n, ∃! k : Nat, k < 2 ^ n ∧ (weylAdd c)^[k] x = y

/-- 20_memory.md section 3, guarantee (b): a `HOLD`, whatever its operand bits, put anywhere in a stream changes neither
the final state nor the words drawn. -/
def Obligations.HoldsAnywhereAreInvisible : Prop :=
  ∀ (s : State) (before after : List TickInputs) (junk : Word), ∃ t u,
    runStream s (before ++ after) = .next t ∧
    runStream s (before ++ { rst := false, load := false, next := false, seedIn := junk } :: after) = .next u ∧
    u.S = t.S ∧ u.outputs = t.outputs

/-- 70_reset_and_hazards.md section 2 and U4: if the host resets or seeds before its first `STEP`, no response of the
run depends on what the register held before; and if it does so at all, neither does the final state. -/
def Obligations.InitialisedRunForgetsPowerUpState : Prop :=
  ∀ (s u : State) (stream : List TickInputs), hostInitialises stream = true →
    ∃ s' u' given, runStream s stream = .next s' ∧ runStream u stream = .next u' ∧
      s'.responses = s.responses ++ given ∧ u'.responses = u.responses ++ given ∧
      (stream.any initialises = true → s'.S = u'.S)

/-- The invariant of Safety.lean: every word ever given is the output of an incremented state, and a word given in the last
tick is the output of the state now stored. Every step keeps it, from every state that has it. The record of responses
is the model's form of what the host captured (log 1). -/
def Obligations.StepKeepsTranscriptInvariant : Prop :=
  ∀ s t : State, s.TranscriptInv → step s = .next t → t.TranscriptInv

/-- The invariant holds right after reset. It holds because the record of responses is empty in `State.reset`, which is the
model's choice (log 1, DESIGN CHOICE) and no rule of the spec. -/
def Obligations.TranscriptInvariantHoldsAtReset : Prop :=
  State.reset.TranscriptInv

/-- 70_reset_and_hazards.md section 3, a sentence the spec marks as derived: what `state_q` shows between two parts of a
stream, loaded later by `SEED`, makes the second part draw the words it would have drawn at once, and end in the same state,
whatever was done with the block in between. -/
def Obligations.SaveAndRestoreThroughStateQ : Prop :=
  ∀ (s : State) (first between second : List TickInputs), ∃ saved direct last, ∃ drawn : List Response,
    runStream s first = .next saved ∧
    runStream s (first ++ second) = .next direct ∧
    runStream s (first ++ between ++ .ofInstr (.seed (stateQ saved.S)) :: second) = .next last ∧
    drawn.length = second.length ∧ last.S = direct.S ∧
    direct.responses = saved.responses ++ drawn ∧
    ∃ given : List Response, last.responses = saved.responses ++ given ++ none :: drawn

/-- 60_exceptions.md section 7, a sentence the spec marks as derived: two instances that differ by `m` increments give
streams that are shifted copies: the second one's words are the first one's after its first `m`. -/
def Obligations.InstancesGiveShiftedStreams : Prop :=
  ∀ (a b : State) (m n : Nat), b.S = a.S + BitVec.ofNat 32 m * 0x9E3779B9#32 →
    ∃ a' b', runStream a (List.replicate (m + n) (.ofInstr .step)) = .next a' ∧
      runStream b (List.replicate n (.ofInstr .step)) = .next b' ∧
      a'.S = b'.S ∧ a'.responses.drop (a.responses.length + m) = b'.responses.drop b.responses.length

/-! ## The assembler -/

/-- 30_encoding.md section 5: the canonical words of the four lines, and a literal out of range is an error and is not
wrapped (R38; the text form is the spec's decision D13). That `STEP -> <name>` takes any name and assembles as `STEP` does,
the name dropped, and that the text read below is split at its blanks, are the model's choice (log 8, DESIGN CHOICE): the
spec says of a name only that it names the response for later reference. -/
def Obligations.AssemblerGivesCanonicalWords : Prop :=
  assembleLine .reset = .ok [{ rst := true, load := false, next := false, seedIn := 0 }] ∧
  (∃ t, assembleLine .hold = .ok [t] ∧ t.rst = false ∧ t.cmd = 0x000000000#34) ∧
  (∀ name, ∃ t, assembleLine (.step name) = .ok [t] ∧ t.rst = false ∧ t.cmd = 0x100000000#34) ∧
  (∀ imm, imm < 2 ^ 32 → ∃ t, assembleLine (.seed imm) = .ok [t] ∧ t.rst = false ∧
    t.cmd = 0x200000000#34 ||| BitVec.ofNat 34 imm) ∧
  (∀ imm, 2 ^ 32 ≤ imm → assembleLine (.seed imm) = .error .literalOutOfRange ∧
    assembleLine (.newSeed imm) = .error .literalOutOfRange) ∧
  parseLine "SEED 0x12345678 ; a seed".toList = .ok (some (.seed 0x12345678)) ∧
  parseLine "STEP -> first".toList = .ok (some (.step (some "first".toList))) ∧
  parseLine "HOLD".toList = .ok (some .hold) ∧ parseLine "RESET".toList = .ok (some .reset)

/-- R39: each pseudo-instruction assembles to its expansion, and `SKIP k` has the effect of adding `k * INC` to the register.
The expansions are the spec's decision D13. -/
def Obligations.PseudoInstructionsExpand : Prop :=
  assembleLine .new = assembleLine (.seed 0) ∧
  (∀ imm, assembleLine (.newSeed imm) = assembleLine (.seed imm)) ∧
  assembleLine .nextU32 = assembleLine (.step none) ∧
  assembleLine .nop = assembleLine .hold ∧
  ∀ (k : Nat) (s : State), ∃ ts t,
    assembleLine (.skip k) = .ok ts ∧ assembleLine (.step none) = .ok [.ofInstr .step] ∧
    ts = List.replicate k (.ofInstr .step) ∧
    runStream s ts = .next t ∧ t.S.toNat = (s.S.toNat + k * 0x9E3779B9) % 2 ^ 32

/-! ## The host layer (software around the block, R57) -/

/-- R58: `nextUint32()` is one `STEP` command: the word it returns is that step's response and the state left is that
step's. -/
def Obligations.NextUint32IsOneStep : Prop :=
  ∀ s : State, ∃ t, exec .step s = .next t ∧
    nextUint32 s = some (fold (mixer (weylInc s.S)), t) ∧ t.S = weylInc s.S

/-- 45_host_layer.md section 2: `nextUnitFloat()` costs one `STEP` and is the quotient `u / 2^32` of its word, in `[0, 1)`, never 1.
That the quotient is exact is the section's sentence "it is exactly representable in IEEE 754 binary64", which the spec marks
as general knowledge (G5); that 0 is reached and no word gives more than `1 - 2^-32` is its sentence "The smallest result is
0.0 ...; the largest is (2^32 - 1)/2^32", which the spec marks as derived. -/
def Obligations.UnitFloatStaysBelowOne : Prop :=
  (∀ s : State, ∃ t, exec .step s = .next t ∧
    nextUnitFloat s = some (((fold (mixer (weylInc s.S))).toNat : ℚ) / 2 ^ 32, t)) ∧
  (∀ u : Word, 0 ≤ unitFloatValue u ∧ unitFloatValue u < 1 ∧ unitFloatValue u ≤ 1 - 1 / 2 ^ 32) ∧
  ∃ s t, nextUnitFloat s = some (0, t)

/-- 45_host_layer.md section 2: with `min >= 0` the two roundings of `nextInRange` agree; `floor` always stays in the interval;
the table's example, marked as derived, shows `truncate` outside it. Where the source settles nothing the model gives no value
(log 9). -/
def Obligations.RangeRoundingDefectNeedsNegativeBound : Prop :=
  (∀ (min max : Int) (u : Word), 0 ≤ min →
    rangeValue .truncate min max u = rangeValue .floor min max u) ∧
  (∀ (min max : Int) (u : Word) (v : Int), rangeValue .floor min max u = some v → min ≤ v ∧ v < max) ∧
  rangeValue .truncate (-1) 0 0xA2BCF603#32 = some 0 ∧ rangeValue .floor (-1) 0 0xA2BCF603#32 = some (-1) ∧
  rangeValue .truncate 0 10 0xA2BCF603#32 = some 6 ∧ rangeValue .truncate (-5) 5 0x261A41F8#32 = some (-3) ∧
  rangeValue .floor (-5) 5 0x261A41F8#32 = some (-4) ∧
  rangeValue .truncate (-1) 0 0x00000000#32 = some (-1) ∧ rangeValue .floor (-1) 0 0x00000000#32 = some (-1) ∧
  rangeValue .truncate (-10) (-5) 0xA2BCF603#32 = some (-6) ∧
  rangeValue .floor (-10) (-5) 0xA2BCF603#32 = some (-7)

/-- 45_host_layer.md section 4: integers wrap modulo `2^32`, an omitted seed is 0, a non-integer is refused under the reference
policy. The wrap is the spec's decision D8. The four examples are the section's sentence "Examples: -1 -> 0xFFFFFFFF ...",
which the spec marks as derived. That a seed argument is omitted or a rational number is the model's reading (log 10,
DEDUCED). -/
def Obligations.SeedCoercionWrapsIntegers : Prop :=
  (∀ z : Int, ((coerce32 z).toNat : Int) = z % 2 ^ 32) ∧
  (∀ (policy : Config.SeedNonIntPolicy), coerceSeed policy none = some 0x00000000#32 ∧
    ∀ z : Int, coerceSeed policy (some (z : ℚ)) = some (coerce32 z)) ∧
  (∀ q : ℚ, q.den ≠ 1 → coerceSeed .refuse (some q) = none) ∧
  coerce32 (-1) = 0xFFFFFFFF#32 ∧ coerce32 (2 ^ 32 + 5) = 0x00000005#32 ∧
  coerce32 (2 ^ 32) = 0x00000000#32 ∧ coerce32 (-2147483648) = 0x80000000#32

/-- R61: for every seed and count, the words of `n` calls to a Sampler Layer's `nextUint32()`, seeded on the block, are those
of `n` invocations of the Functional Embodiment constructed with the same seed, and both keep the same state. -/
def Obligations.EmbodimentMatchesSampler : Prop :=
  ∀ (s : State) (seed : Word) (n : Nat), ∃ t u,
    exec (.seed seed) s = .next t ∧
    samplerSequence n t = some ((embodimentSequence n seed).1, u) ∧
    u.S = (embodimentSequence n seed).2 ∧ (embodimentSequence n seed).1.length = n
end

