-- ==== Sys2Proof/Laws/State.lean ====
section
/-! SUPPORT. One lemma per field of the state and update of it, and the fields of the reset state. -/

namespace Sys2Proof.Machine

@[simp] theorem State.readS_eq (s : State) : s.readS = s.S := rfl

@[simp] theorem State.commit_S (s : State) (v : Word) (r : Response) : (s.commit v r).S = v := rfl
@[simp] theorem State.commit_pending (s : State) (v : Word) (r : Response) : (s.commit v r).pending = s.pending := rfl
@[simp] theorem State.commit_responses (s : State) (v : Word) (r : Response) :
    (s.commit v r).responses = s.responses ++ [r] := rfl

theorem State.commit_eq (s : State) (v : Word) (r : Response) :
    s.commit v r = { S := v, pending := s.pending, responses := s.responses ++ [r] } := rfl

@[simp] theorem State.takeReset_S (s : State) : s.takeReset.S = 0x00000000#32 := rfl
@[simp] theorem State.takeReset_pending (s : State) : s.takeReset.pending = s.pending := rfl
@[simp] theorem State.takeReset_responses (s : State) : s.takeReset.responses = s.responses ++ [none] := rfl

theorem State.runBlockFunction_eq (s : State) (f : BlockState → BlockState × Response) :
    s.runBlockFunction f = s.commit (f s.S).1 (f s.S).2 := rfl

theorem State.takeReset_eq (s : State) : s.takeReset = s.commit 0x00000000#32 none := rfl

@[simp] theorem State.present_S (s : State) (t : TickInputs) : (s.present t).S = s.S := rfl
@[simp] theorem State.present_pending (s : State) (t : TickInputs) : (s.present t).pending = t :: s.pending := rfl
@[simp] theorem State.present_responses (s : State) (t : TickInputs) : (s.present t).responses = s.responses := rfl

@[simp] theorem State.withFetchWord_S (s : State) (nbits w : Nat) : (s.withFetchWord nbits w).S = s.S := rfl
@[simp] theorem State.withFetchWord_responses (s : State) (nbits w : Nat) :
    (s.withFetchWord nbits w).responses = s.responses := rfl
@[simp] theorem State.withFetchWord_pending (s : State) (nbits w : Nat) :
    (s.withFetchWord nbits w).pending = .ofCommandWord (BitVec.ofNat 34 (w % 2 ^ nbits)) :: s.pending := rfl

@[simp] theorem State.reset_pending : State.reset.pending = [] := rfl
@[simp] theorem State.reset_responses : State.reset.responses = [] := rfl

/-- Presenting a tick and taking one are inverse: the tick taken is the one presented. -/
@[simp] theorem State.takeTick_present (s : State) (t : TickInputs) : (s.present t).takeTick = some (t, s) := rfl

/-- Two states with the same register, pending ticks and responses are the same. -/
theorem State.eq_of_fields {s t : State} (hS : s.S = t.S) (hp : s.pending = t.pending)
    (hr : s.responses = t.responses) : s = t := by
  obtain ⟨⟨p, r⟩, S⟩ := s
  obtain ⟨⟨p', r'⟩, S'⟩ := t
  cases hS
  cases hp
  cases hr
  rfl

/-- A state that has a tick to take is a state to which that tick was presented. -/
theorem State.eq_present {s : State} {t : TickInputs} {ts : List TickInputs} (h : s.pending = t :: ts) :
    s = ({ s with pending := ts } : State).present t :=
  State.eq_of_fields rfl h rfl

/-- What a tick wrote and what it answered can be read off the state it leaves. -/
theorem State.commit_inj {s : State} {v v' : BlockState} {r r' : Response} :
    s.commit v r = s.commit v' r' ↔ v = v' ∧ r = r' := by
  constructor
  · intro h
    have hr := congrArg (fun t : State => t.responses) h
    exact ⟨congrArg State.S h, by simpa using hr⟩
  · rintro ⟨rfl, rfl⟩
    rfl

end Sys2Proof.Machine
end

