-- ==== Sys2Proof/Laws/Ops.lean ====
section
/-! SUPPORT. What each shared operation is, said once: the datapath functions, the next tick, the commands. -/

namespace Sys2Proof.Machine

/-- The wrapping addition of `INC` as a number. Cite this one: `simp` with `BitVec.toNat_add` and `BitVec.toNat_ofNat` leaves a
comparison of two large literals that it settles by unfolding them, and runs out of memory. -/
theorem toNat_add_inc (x : Word) : (x + 0x9E3779B9#32).toNat = (x.toNat + 2654435769) % 4294967296 :=
  BitVec.toNat_add x 0x9E3779B9#32

theorem weylInc_eq (x : Word) : weylInc x = x + 0x9E3779B9#32 := rfl
theorem rotl16_eq (x : Word) : rotl16 x = x.extractLsb' 0 16 ++ x.extractLsb' 16 16 := rfl
theorem mul32_eq (a b : Word) : mul32 a b = a * b := rfl
theorem mixer_eq (x : Word) : mixer x = x * rotl16 x := rfl
theorem fold_eq (x : Word) : fold x = x ^^^ (x >>> 16) := rfl
theorem outWord_eq (w : Word) : outWord w = fold (mixer w) := rfl
theorem transition_eq (x : Word) : transition x = (weylInc x, outWord (weylInc x)) := rfl

/-- Bit `i` of the exchanged halves. -/
theorem rotl16_getLsbD (x : Word) (i : Nat) :
    (rotl16 x).getLsbD i = if i < 16 then x.getLsbD (i + 16) else (decide (i < 32) && x.getLsbD (i - 16)) := by
  rw [rotl16_eq, BitVec.getLsbD_append]
  by_cases h : i < 16
  · simp [h, Nat.add_comm]
  · have e : decide (i - 16 < 16) = decide (i < 32) := by simp; omega
    simp [h, e]

/-- Taking a tick answers nothing exactly when the host's list is exhausted. -/
theorem takeTick_none (s : State) : s.takeTick = none ↔ s.pending = [] := by
  unfold State.takeTick
  cases s.pending <;> simp

/-- Taking a tick takes the oldest one and changes nothing else. -/
theorem takeTick_some (s s' : State) (t : TickInputs) :
    s.takeTick = some (t, s') ↔ ∃ ts, s.pending = t :: ts ∧ s' = { s with pending := ts } := by
  unfold State.takeTick
  cases h : s.pending with
  | nil => simp
  | cons u us =>
    simp only [Option.some.injEq, Prod.mk.injEq, List.cons.injEq]
    constructor
    · rintro ⟨rfl, rfl⟩
      exact ⟨us, ⟨rfl, rfl⟩, rfl⟩
    · rintro ⟨ts, ⟨rfl, rfl⟩, rfl⟩
      exact ⟨rfl, rfl⟩

theorem exec_hold (s : State) : exec .hold s = .next (s.commit s.S none) := rfl
theorem exec_seed (v : Word) (s : State) : exec (.seed v) s = .next (s.commit v none) := rfl
theorem exec_step (s : State) : exec .step s = .next (s.commit (weylInc s.S) (some (outWord (weylInc s.S)))) := rfl

/-- All a command can do: it writes `S` and answers one response. -/
theorem exec_cases {i : Instr} {s t : State} (h : exec i s = .next t) :
    (i = .hold ∧ t = s.commit s.S none) ∨
    (i = .step ∧ t = s.commit (weylInc s.S) (some (outWord (weylInc s.S)))) ∨
    (∃ v, i = .seed v ∧ t = s.commit v none) := by
  cases i with
  | hold => rw [exec_hold] at h; exact .inl ⟨rfl, (Host.Outcome.next.inj h).symm⟩
  | step => rw [exec_step] at h; exact .inr (.inl ⟨rfl, (Host.Outcome.next.inj h).symm⟩)
  | seed v => rw [exec_seed] at h; exact .inr (.inr ⟨v, rfl, (Host.Outcome.next.inj h).symm⟩)

end Sys2Proof.Machine
end

