-- ==== Sys2Proof/Laws/Decode.lean ====
section
/-! SUPPORT. The fields of a command word made from ports, and of the canonical words. -/

namespace Sys2Proof

@[simp] theorem fieldLoad_cmd (t : TickInputs) : fieldLoad t.cmd = t.load := by
  unfold fieldLoad TickInputs.cmd
  rw [BitVec.getLsbD_append, BitVec.getLsbD_append]
  simp

@[simp] theorem fieldNext_cmd (t : TickInputs) : fieldNext t.cmd = t.next := by
  unfold fieldNext TickInputs.cmd
  rw [BitVec.getLsbD_append, BitVec.getLsbD_append]
  simp

@[simp] theorem fieldSeedIn_cmd (t : TickInputs) : fieldSeedIn t.cmd = t.seedIn := by
  apply BitVec.eq_of_getLsbD_eq
  intro i hi
  simp only [fieldSeedIn, TickInputs.cmd, BitVec.getLsbD_extractLsb', BitVec.getLsbD_append]
  simp [hi]

/-- Bit `i` of a canonical `SEED` word: bit 33, and the operand in the bits below 32. -/
theorem getLsbD_encode_seed (v : Word) (i : Nat) :
    (encode (.seed v)).getLsbD i = (decide (i = 33) || v.getLsbD i) := by
  have hc : ∀ i < 34, (0x200000000#34).getLsbD i = decide (i = 33) := by decide
  by_cases h : i < 34
  · have he : encode (.seed v) = 0x200000000#34 ||| v.setWidth 34 := rfl
    rw [he, BitVec.getLsbD_or, hc i h, BitVec.getLsbD_setWidth]
    simp [h]
  · have hv : v.getLsbD i = false := BitVec.getLsbD_of_ge v i (by omega)
    rw [BitVec.getLsbD_of_ge _ i (by omega), hv]
    simp
    omega

/-- The command of a tick's inputs, by their priority (R66). -/
theorem decode_cmd (t : TickInputs) :
    decode t.cmd = if t.load then .seed t.seedIn else if t.next then .step else .hold := by
  simp [decode]

@[simp] theorem ofCommandWord_rst (c : CommandWord) : (TickInputs.ofCommandWord c).rst = false := rfl
@[simp] theorem ofCommandWord_load (c : CommandWord) : (TickInputs.ofCommandWord c).load = fieldLoad c := rfl
@[simp] theorem ofCommandWord_next (c : CommandWord) : (TickInputs.ofCommandWord c).next = fieldNext c := rfl
@[simp] theorem ofCommandWord_seedIn (c : CommandWord) : (TickInputs.ofCommandWord c).seedIn = fieldSeedIn c := rfl

end Sys2Proof
end

