-- ==== Sys2Proof/Laws/Step.lean ====
section
/-! SUPPORT. What a tick and a step can do, said once, and a run unfolded by one tick. -/

namespace Sys2Proof.Machine

theorem tick_reset {t : TickInputs} (h : t.rst = true) (s : State) :
    tick t s = .next (s.commit 0x00000000#32 none) := by
  simp [tick, h, State.takeReset_eq]

theorem tick_command {t : TickInputs} (h : t.rst = false) (s : State) : tick t s = exec (decode t.cmd) s := by
  simp [tick, h]

/-- What a tick does, by the priority of its inputs: with `tick_reset`, one lemma for each of the four arms. -/
theorem tick_seed {t : TickInputs} (hr : t.rst = false) (hl : t.load = true) (s : State) :
    tick t s = .next (s.commit t.seedIn none) := by
  rw [tick_command hr, decode_cmd, if_pos hl, exec_seed]

theorem tick_step {t : TickInputs} (hr : t.rst = false) (hl : t.load = false) (hn : t.next = true) (s : State) :
    tick t s = .next (s.commit (weylInc s.S) (some (outWord (weylInc s.S)))) := by
  rw [tick_command hr, decode_cmd, if_neg (by simp [hl]), if_pos hn, exec_step]

theorem tick_hold {t : TickInputs} (hr : t.rst = false) (hl : t.load = false) (hn : t.next = false) (s : State) :
    tick t s = .next (s.commit s.S none) := by
  rw [tick_command hr, decode_cmd, if_neg (by simp [hl]), if_neg (by simp [hn]), exec_hold]

/-- A tick always answers a next state, which it commits: one register value, one response. -/
theorem tick_commits (t : TickInputs) (s : State) : ∃ v r, tick t s = .next (s.commit v r) := by
  cases hr : t.rst with
  | true => exact ⟨_, _, tick_reset hr s⟩
  | false =>
    cases hl : t.load with
    | true => exact ⟨_, _, tick_seed hr hl s⟩
    | false =>
      cases hn : t.next with
      | true => exact ⟨_, _, tick_step hr hl hn s⟩
      | false => exact ⟨_, _, tick_hold hr hl hn s⟩

/-- All a step can do: it takes the oldest pending tick, which is a reset or the command its inputs decode to. -/
theorem step_cases {s t : State} (h : step s = .next t) :
    ∃ u us, s.pending = u :: us ∧
      ((u.rst = true ∧ t = ({ s with pending := us } : State).commit 0x00000000#32 none) ∨
       (u.rst = false ∧ exec (decode u.cmd) { s with pending := us } = .next t)) := by
  unfold step at h
  split at h
  · cases h
  · rename_i u s' htake
    obtain ⟨us, hp, rfl⟩ := (takeTick_some _ _ _).mp htake
    refine ⟨u, us, hp, ?_⟩
    cases hr : u.rst with
    | true => exact .inl ⟨rfl, by rw [tick_reset hr] at h; exact (Host.Outcome.next.inj h).symm⟩
    | false => exact .inr ⟨rfl, by rw [tick_command hr] at h; exact h⟩

/-- A run over no tick ends where it starts. -/
theorem runStream_nil (s : State) : runStream s [] = .next { s with pending := [] } := rfl

/-- A step that has a tick to take, takes it. -/
theorem step_cons (s : State) (t : TickInputs) (ts : List TickInputs) :
    step { s with pending := t :: ts } = tick t { s with pending := ts } := rfl

/-- The host's run unfolded by one step that is taken. -/
theorem run_succ {s s' : State} (h : step s = .next s') (n : Nat) :
    Host.Core.run Sys2Proof.core (n + 1) s = Host.Core.run Sys2Proof.core n s' := by
  have h' : Sys2Proof.core.step s = .next s' := h
  simp only [Host.Core.run, h']

/-- A stream's first tick, and the rest of the run from what it commits. -/
theorem runStream_cons {s : State} {t : TickInputs} {ts : List TickInputs} {v : Word} {r : Response}
    (h : tick t { s with pending := ts } = .next (({ s with pending := ts } : State).commit v r)) :
    runStream s (t :: ts) = runStream (s.commit v r) ts := by
  have hs : step { s with pending := t :: ts } = .next (({ s with pending := ts } : State).commit v r) := by
    rw [step_cons]; exact h
  exact run_succ hs ts.length

/-- The block's own run, over no tick and by its first tick. -/
@[simp] theorem runBlock_nil (S : BlockState) : runBlock S [] = (S, []) := rfl

theorem runBlock_cons (S : BlockState) (t : TickInputs) (ts : List TickInputs) :
    runBlock S (t :: ts) =
      ((runBlock (blockTick S t).1 ts).1, (blockTick S t).2 :: (runBlock (blockTick S t).1 ts).2) := rfl

end Sys2Proof.Machine
end

