-- ==== Sys2Proof/Laws/HostLayer.lean ====
section
/-! SUPPORT. The host layer's sequences unfolded by one call. -/

namespace Sys2Proof.Machine

theorem callEmbodiment_eq (kept : Word) : callEmbodiment kept = (outWord (weylInc kept), weylInc kept) := rfl

theorem embodimentSequence_succ (n : Nat) (kept : Word) :
    embodimentSequence (n + 1) kept =
      (outWord (weylInc kept) :: (embodimentSequence n (weylInc kept)).1,
        (embodimentSequence n (weylInc kept)).2) := by
  rw [embodimentSequence, callEmbodiment_eq]

theorem samplerSequence_succ {s t t' : State} {u : Word} {us : List Word} {n : Nat}
    (h : nextUint32 s = some (u, t)) (hn : samplerSequence n t = some (us, t')) :
    samplerSequence (n + 1) s = some (u :: us, t') := by
  simp only [samplerSequence, h, hn]

end Sys2Proof.Machine
end

