-- ==== Sys2Proof/Laws/PerInstr.lean ====
section
/-! SUPPORT. The family EncodeCanonical: the encoder gives words whose ignored bits are 0 (R38). -/

namespace Sys2Proof.Laws.EncodeCanonical

def Statement (i : Instr) : Prop := canonical (encode i) = encode i

theorem hold : Statement .hold := rfl

theorem step : Statement .step := rfl

theorem seed (v : Word) : Statement (.seed v) := by
  have hm : ∀ i < 34, (0x2FFFFFFFF#34).getLsbD i = (decide (i < 32) || decide (i = 33)) := by decide
  have hl : fieldLoad (encode (.seed v)) = true := by simp [fieldLoad, getLsbD_encode_seed]
  unfold Statement canonical
  rw [if_pos hl]
  apply BitVec.eq_of_getLsbD_eq
  intro i hi
  rw [BitVec.getLsbD_and, hm i hi, getLsbD_encode_seed]
  by_cases h : i < 32
  · simp [h]
  · simp [h, BitVec.getLsbD_of_ge v i (by omega)]

end Sys2Proof.Laws.EncodeCanonical
end

