-- ==== Sys2Proof/Tests/Slice0.lean ====
section
/-! SUPPORT. Tests of one step each, with the values of 95_test_vectors.md and of the rules' examples; the smoke test of
WellFormed; and, for the statements with hypotheses, a state and operands that meet them (named witness_<statement>). -/

namespace Sys2Proof.Tests

open Sys2Proof Sys2Proof.Machine

/-- A small state: the register, no tick pending, nothing given yet. -/
def withS (v : Word) : State := { S := v, pending := [], responses := [] }

/-- The state an outcome goes on in, if it does. -/
def after : Host.Outcome State Fault Refusal → Option State
  | .next t => some t
  | .fault _ => none
  | .refused _ => none

/-! ### WellFormed -/

theorem test_wellFormed_refuses_seed_2_pow_32 : (AsmLine.seed 4294967296).wellFormed = false := by decide
theorem test_wellFormed_refuses_new_2_pow_32 : (AsmLine.newSeed 4294967296).wellFormed = false := by decide
theorem test_wellFormed_admits_largest_seed : (AsmLine.seed 4294967295).wellFormed = true := by decide
theorem test_wellFormed_admits_every_command : (Instr.seed 0xFFFFFFFF#32).wellFormed = true := by decide

/-! ### Decode: words written out from R33's table and 95_test_vectors.md section 5.1 -/

theorem test_decode_hold : decode 0b0000000000000000000000000000000000#34 = .hold := by decide
theorem test_decode_hold_junk : decode 0x0CAFEF00D#34 = .hold := by decide
theorem test_decode_step : decode 0b0100000000000000000000000000000000#34 = .step := by decide
theorem test_decode_step_junk : decode 0x1DEADBEEF#34 = .step := by decide
theorem test_decode_seed : decode 0b1000010010001101000101011001111000#34 = .seed 0x12345678#32 := by decide
theorem test_decode_seed_next_ignored : decode 0x312345678#34 = .seed 0x12345678#32 := by decide
theorem test_decode_rejects_35_bits : decodeTableWord 40 0x412345678 = none := by decide
theorem test_decodeTableWord_seed : decodeTableWord 34 0x2FFFFFFFF = some (.seed 0xFFFFFFFF#32) := by decide

/-! ### The datapath functions: 95_test_vectors.md section 2 -/

theorem test_weylInc_no_wrap : weylInc 0x12345678#32 = 0xB06BD031#32 := by decide
theorem test_weylInc_wrap : weylInc 0x61C88648#32 = 0x00000001#32 := by decide
theorem test_rotl16_bit15 : rotl16 0x00008000#32 = 0x80000000#32 := by decide
theorem test_rotl32_8 : rotl32 0x12345678#32 8 = 0x34567812#32 := by decide
theorem test_mul32_above_2_pow_53 : mul32 0x05A8279B#32 0x05A8279B#32 = 0x0F9097D9#32 := by decide
theorem test_mul32_low_word : mul32 0x12345678#32 0x9ABCDEF0#32 = 0x242D2080#32 := by decide
theorem test_mixer : mixer 0xDAA66D2B#32 = 0x261A67E2#32 := by decide
theorem test_fold_logical_shift : fold 0xDEADBEEF#32 = 0xDEAD6042#32 := by decide

/-! ### The commands -/

theorem test_hold : after (exec .hold (withS 0x3C6EF372#32))
    = some { S := 0x3C6EF372#32, pending := [], responses := [none] } := by decide
theorem test_seed : after (exec (.seed 0x12345678#32) (withS 0x9E3779B9#32))
    = some { S := 0x12345678#32, pending := [], responses := [none] } := by decide
theorem test_step_from_reset : after (exec .step State.reset)
    = some { S := 0x9E3779B9#32, pending := [], responses := [some 0xA2BCF603#32] } := by decide
theorem test_step_second_does_not_feed_back : after (exec .step (withS 0x9E3779B9#32))
    = some { S := 0x3C6EF372#32, pending := [], responses := [some 0x977FC583#32] } := by decide

/-! ### The block alone: 95_test_vectors.md program P2, events 1 to 5 -/

theorem test_runBlock_P2 : runBlock 0x00000000#32
      [.ofInstr (.seed 0xFFFFFFFF#32), .ofInstr .step, .ofInstr .hold, .ofInstr .hold, .ofInstr .step]
    = (0x3C6EF371#32, [none, some 0xAF4A19C2#32, none, none, some 0xB09CA612#32]) := by decide
theorem test_blockExec_seed_gives_no_word :
    blockExec 0x9E3779B9#32 (.seed 0x12345678#32) = (0x12345678#32, none) := by decide

/-! ### One tick: 95_test_vectors.md section 5.2 and program P3 -/

theorem test_reset_wins : (after (step ((withS 0x3C6EF372#32).present
    { rst := true, load := true, next := true, seedIn := 0x12345678#32 }))).map (·.S) = some 0x00000000#32 := by decide
theorem test_load_wins_over_next : after (step ((withS 0x9E3779B9#32).present
    { rst := false, load := true, next := true, seedIn := 0x12345678#32 }))
    = some { S := 0x12345678#32, pending := [], responses := [none] } := by decide
theorem test_fetch_word_runs_first : after (step (State.reset.withFetchWord 34 0x1DEADBEEF))
    = some { S := 0x9E3779B9#32, pending := [], responses := [some 0xA2BCF603#32] } := by decide
theorem test_exhausted_list_ends_run : after (step State.reset) = none := by decide

/-! ### The assembler and the host layer: R38, R39, 45_host_layer.md -/

theorem test_assemble_text :
    (assemble ["RESET ; start".toList, "SEED 0x12345678".toList, "".toList, "SKIP 2".toList]).toOption =
      some [.reset, .ofCommandWord 0x212345678#34, .ofCommandWord 0x100000000#34, .ofCommandWord 0x100000000#34] := by
  decide
theorem test_assemble_decimal_literal : literalValue "4294967295".toList = some 4294967295 := by decide
theorem test_assemble_bad_literal : literalValue "0xG".toList = none := by decide
theorem test_assemble_out_of_range : (assemble ["SEED 4294967296".toList]).toOption = none := by decide
theorem test_range_truncate_below_zero : rangeValue .truncate (-5) 5 0x261A41F8#32 = some (-3) := by decide
theorem test_range_empty : rangeValue .truncate 5 5 0x261A41F8#32 = none := by decide
theorem test_coerce_minus_one : coerce32 (-1) = 0xFFFFFFFF#32 := by decide
theorem test_embodiment_third_word : (embodimentSequence 3 0x00000000#32).1
    = [0xA2BCF603#32, 0x977FC583#32, 0x261A41F8#32] := by decide

/-! ### Witnesses: the hypotheses of each statement that has any, met -/

theorem witness_WeylIncWrapsExactlyAboveLimit :
    (0x61C88646#32 : Word).toNat ≤ 0x61C88646 ∧ 0x61C88646 < (0x61C88647#32 : Word).toNat := by decide
theorem witness_FoldMixesHighHalfIntoLow : (0x80000000#32 : Word).msb = true := by decide
theorem witness_Rotl16ExchangesHalves : (15 : Nat) < 16 := by decide
theorem witness_SeedOperandTakenAsItStands :
    (0x212345678#34 : CommandWord).getLsbD 33 = true ∧ (31 : Nat) < 32 ∧
    (TickInputs.ofInstr (.seed 0x12345678#32)).rst = false ∧
    (TickInputs.ofInstr (.seed 0x12345678#32)).load = true := by decide
theorem witness_DecodeOfEncodeIsIdentity :
    Instr.hold.wellFormed = true ∧ Instr.step.wellFormed = true ∧ (Instr.seed 0xFFFFFFFF#32).wellFormed = true := by decide
theorem witness_StepRunsDecodedCommand :
    (TickInputs.ofInstr .step).rst = false ∧ Instr.step.wellFormed = true ∧
    decodeTableWord 34 0x100000000 = some .step := by decide
theorem witness_StepTakesOneTickGivesOneResponse :
    after (step (State.reset.present (.ofInstr .step)))
      = some { S := 0x9E3779B9#32, pending := [], responses := [some 0xA2BCF603#32] } := by decide
theorem witness_OutputPortsCarryTheResponse :
    outValid { rst := false, load := false, next := true, seedIn := 0xDEADBEEF#32 } = true := by decide
theorem witness_StructuralDatapathRefinesStep : (TickInputs.ofInstr .hold).rst = false := by decide
theorem witness_SeedErasesHistory :
    ∀ t ∈ [TickInputs.ofInstr .step, TickInputs.ofInstr .hold], t.rst = false ∧ t.load = false := by decide
theorem witness_ReducedWidthWeylStepHasFullPeriod : 1 ≤ 8 ∧ (0x9D#8 : BitVec 8).toNat % 2 = 1 := by decide
theorem witness_InitialisedRunForgetsPowerUpState :
    hostInitialises [.ofInstr .hold, .reset, .ofInstr .step] = true ∧
    [TickInputs.ofInstr .hold, .reset, .ofInstr .step].any initialises = true := by decide
/-- The state after the first `STEP` from reset, with a second one to come. -/
def afterFirstStep : State :=
  { S := 0x9E3779B9#32, pending := [.ofInstr .step], responses := [some 0xA2BCF603#32] }
theorem witness_StepKeepsTranscriptInvariant :
    afterFirstStep.TranscriptInv ∧ (after (step afterFirstStep)).isSome = true := by
  have hout : outWord 0x9E3779B9#32 = 0xA2BCF603#32 := by decide
  refine ⟨⟨fun o h => ⟨0x9E3779B9#32, ?_⟩, fun o h => ?_⟩, by decide⟩
  · rw [hout]
    simpa [afterFirstStep] using h
  · show o = outWord 0x9E3779B9#32
    rw [hout]
    simpa [afterFirstStep, eq_comm] using h
theorem witness_InstancesGiveShiftedStreams :
    (withS 0x3C6EF372#32).S = (withS 0x00000000#32).S + BitVec.ofNat 32 2 * 0x9E3779B9#32 := by decide
theorem witness_AssemblerGivesCanonicalWords : 4294967295 < 2 ^ 32 ∧ 2 ^ 32 ≤ 4294967296 := by decide
theorem witness_RangeRoundingDefectNeedsNegativeBound :
    (0 : Int) ≤ 0 ∧ rangeValue .floor 0 10 0xA2BCF603#32 = some 6 := by decide
theorem witness_SeedCoercionWrapsIntegers : ((1 : ℚ) / 2).den ≠ 1 := by norm_num

end Sys2Proof.Tests
end

/-! # Proofs of the scope family (00_scope.md) -/

namespace Sys2Proof.Machine

/-! ## A command as a function of the register (R6, R8) -/

/-- A command commits what the block's own step function answers on the register, and nothing else of the state is read. -/
theorem exec_eq_commit_blockExec (i : Instr) (s : State) :
    exec i s = .next (s.commit (blockExec s.S i).1 (blockExec s.S i).2) := by
  cases i with
  | hold => exact exec_hold s
  | step => exact exec_step s
  | seed v => exact exec_seed v s

/-- Settles O24: the pair is `blockExec S i`; it is the only one because a commit determines what it wrote and answered. -/
theorem commandDependsOnRegisterAlone : Obligations.CommandDependsOnRegisterAlone := by
  intro i S
  refine ⟨blockExec S i, fun pending responses => exec_eq_commit_blockExec i _, fun p hp => ?_⟩
  have hcommit := Host.Outcome.next.inj ((exec_eq_commit_blockExec i _).symm.trans (hp [] []))
  obtain ⟨hvalue, hresponse⟩ := (State.commit_inj (s := { S := S, pending := [], responses := [] })).mp hcommit
  exact (Prod.ext hvalue hresponse).symm

/-! ## The network of sub-units (R7) -/

@[simp] theorem wires_q (S : BlockState) (t : TickInputs) : (wires S t).q = S := rfl
@[simp] theorem wires_w (S : BlockState) (t : TickInputs) : (wires S t).w = weylInc S := rfl
@[simp] theorem wires_r (S : BlockState) (t : TickInputs) : (wires S t).r = rotl16 (weylInc S) := rfl
@[simp] theorem wires_m (S : BlockState) (t : TickInputs) : (wires S t).m = mixer (weylInc S) := rfl
@[simp] theorem wires_o (S : BlockState) (t : TickInputs) : (wires S t).o = outWord (weylInc S) := rfl
@[simp] theorem wires_d (S : BlockState) (t : TickInputs) :
    (wires S t).d = if t.load then t.seedIn else weylInc S := rfl
@[simp] theorem wires_we (S : BlockState) (t : TickInputs) : (wires S t).we = (t.load || t.next) := rfl
@[simp] theorem wires_outValid (S : BlockState) (t : TickInputs) :
    (wires S t).outValid = (t.next && !t.load && !t.rst) := rfl

theorem wires_nextS (S : BlockState) (t : TickInputs) :
    (wires S t).nextS = if t.rst then 0x00000000#32 else if (wires S t).we then (wires S t).d else S := rfl

/-- The response read off the network: the wire `o` while `out_valid` is 1. -/
def Wires.response (n : Wires) : Response := if n.outValid then some n.o else none

/-- Presenting a tick and stepping takes that tick. -/
theorem step_present (s : State) (t : TickInputs) : step (s.present t) = tick t s := rfl

/-- A tick commits what the network computes: one case for each arm of the priority of R66. -/
theorem tick_eq_commit_wires (t : TickInputs) (s : State) :
    tick t s = .next (s.commit (wires s.S t).nextS (wires s.S t).response) := by
  cases hr : t.rst with
  | true => simp [tick_reset hr, wires_nextS, Wires.response, hr]
  | false =>
    cases hl : t.load with
    | true => simp [tick_seed hr hl, wires_nextS, Wires.response, hr, hl]
    | false =>
      cases hn : t.next with
      | true => simp [tick_step hr hl hn, wires_nextS, Wires.response, hr, hl, hn]
      | false => simp [tick_hold hr hl hn, wires_nextS, Wires.response, hr, hl, hn]

/-- The product on the wire `m` as a number. -/
theorem toNat_mixer (x : Word) : (mixer x).toNat = (x.toNat * (rotl16 x).toNat) % 2 ^ 32 :=
  BitVec.toNat_mul x (rotl16 x)

/-- Settles O33: the wires by their equations, and the step by `tick_eq_commit_wires`. -/
theorem structuralDatapathRefinesStep : Obligations.StructuralDatapathRefinesStep := by
  refine ⟨fun S t => ?_, fun s t => ⟨?_, fun hr => ?_⟩⟩
  · exact ⟨wires_q S t, toNat_add_inc S, wires_r S t, toNat_mixer (weylInc S), fold_eq (mixer (weylInc S)),
      wires_d S t, wires_we S t, wires_outValid S t⟩
  · rw [step_present, tick_eq_commit_wires, State.commit_eq, Wires.response]
  · rw [wires_nextS, if_neg (by simp [hr])]

end Sys2Proof.Machine

/-! # Proofs of the state family (10_state.md) -/

namespace Sys2Proof.Machine

/-- The register's value in the complete reset state (R18). -/
@[simp] theorem State.reset_S : State.reset.S = 0x00000000#32 := rfl

@[simp] theorem TickInputs.reset_rst : TickInputs.reset.rst = true := rfl

/-- A presented reset tick completes from every state: it commits the default seed and answers no word. -/
theorem step_present_reset (s : State) : step (s.present .reset) = .next (s.commit 0x00000000#32 none) := by
  rw [step_present, tick_reset TickInputs.reset_rst]

/-- Settles O1: the register's reset value is the default seed, and the reset tick's commit writes the same value. -/
theorem resetStateHoldsDefaultSeed : Obligations.ResetStateHoldsDefaultSeed := by
  refine ⟨State.reset_S, fun s => ⟨s.commit 0x00000000#32 none, step_present_reset s, ?_⟩⟩
  rw [State.commit_S, State.reset_S]

end Sys2Proof.Machine

/-! # Proofs of the encoding family (30_encoding.md) -/

namespace Sys2Proof

/-! ## The bits a row of the command table fixes (R33, R34) -/

/-- The mask of the row `SEED` reads the field `load`. -/
theorem and_loadMask (c : CommandWord) :
    c &&& 0x200000000#34 = if fieldLoad c then 0x200000000#34 else 0#34 :=
  BitVec.and_twoPow c 33

/-- The bit between the two masks reads the field `next`. -/
theorem and_nextMask (c : CommandWord) :
    c &&& 0x100000000#34 = if fieldNext c then 0x100000000#34 else 0#34 :=
  BitVec.and_twoPow c 32

/-- The mask of the rows `HOLD` and `STEP` reads the fields `load` and `next`. -/
theorem and_loadNextMask (c : CommandWord) :
    c &&& 0x300000000#34 =
      (if fieldLoad c then 0x200000000#34 else 0#34) ||| (if fieldNext c then 0x100000000#34 else 0#34) := by
  have hmask : 0x300000000#34 = 0x200000000#34 ||| 0x100000000#34 := by decide
  rw [hmask, BitVec.and_or_distrib_left, and_loadMask, and_nextMask]

/-! ## The decoder, one equation a row -/

theorem decode_of_load {c : CommandWord} (hl : fieldLoad c = true) : decode c = .seed (fieldSeedIn c) := by
  simp [decode, hl]

theorem decode_of_next {c : CommandWord} (hl : fieldLoad c = false) (hn : fieldNext c = true) : decode c = .step := by
  simp [decode, hl, hn]

theorem decode_of_neither {c : CommandWord} (hl : fieldLoad c = false) (hn : fieldNext c = false) :
    decode c = .hold := by
  simp [decode, hl, hn]

/-- A word written out as its three fields decodes by their priority. -/
theorem decode_fields (l n : Bool) (v : Word) :
    decode ((BitVec.ofBool l ++ BitVec.ofBool n) ++ v) = if l then .seed v else if n then .step else .hold :=
  decode_cmd { rst := false, load := l, next := n, seedIn := v }

/-- The operand field is the word's low bits, each at its own place (R35). -/
theorem fieldSeedIn_getLsbD (c : CommandWord) {i : Nat} (hi : i < 32) :
    (fieldSeedIn c).getLsbD i = c.getLsbD i := by
  simp [fieldSeedIn, hi]

/-- Settles O13: the fields of the ports' word, then one case for each row that `load` and `next` select; the two rows
with `load` are the same row. -/
theorem commandWordsPartitionIntoThreeRows : Obligations.CommandWordsPartitionIntoThreeRows := by
  refine ⟨fun t => ⟨fieldLoad_cmd t, fieldNext_cmd t, fieldSeedIn_cmd t⟩, fun c => ?_⟩
  rw [and_loadMask, and_loadNextMask]
  cases hl : fieldLoad c with
  | true =>
    have hd : decode c = .seed (c.extractLsb' 0 32) := decode_of_load hl
    cases hn : fieldNext c with
    | true => exact .inr (.inr ⟨by decide, by decide, by decide, hd⟩)
    | false => exact .inr (.inr ⟨by decide, by decide, by decide, hd⟩)
  | false =>
    cases hn : fieldNext c with
    | true => exact .inr (.inl ⟨by decide, by decide, decode_of_next hl hn⟩)
    | false => exact .inl ⟨by decide, by decide, decode_of_neither hl hn⟩

end Sys2Proof

namespace Sys2Proof.Machine

/-! ## Every command word runs (R35, R36) -/

/-- Settles O14: `exec` commits for every command, the words decode by the priority of their fields, and the tick with
`load` and `next` is the `SEED` arm. -/
theorem everyCommandWordRunsAndLoadWins : Obligations.EveryCommandWordRunsAndLoadWins := by
  refine ⟨fun c s => ⟨_, exec_eq_commit_blockExec (decode c) s⟩, fun v nx => decode_fields true nx v,
    fun v => decode_fields false true v, fun v => decode_fields false false v, fun s v => ?_⟩
  refine ⟨s.commit v none, ?_, State.commit_S s v none, State.commit_responses s v none, rfl⟩
  rw [step_present, tick_seed rfl rfl]

/-- Settles O15: the decoder takes the operand field, and the tick commits the port's value. -/
theorem seedOperandTakenAsItStands : Obligations.SeedOperandTakenAsItStands := by
  refine ⟨fun c hl => ⟨fieldSeedIn c, decode_of_load hl, fun i hi => fieldSeedIn_getLsbD c hi⟩, fun s t hr hl => ?_⟩
  exact ⟨s.commit t.seedIn none, by rw [step_present, tick_seed hr hl], State.commit_S s t.seedIn none⟩

/-! ## The output ports (R31, R32) -/

@[simp] theorem stateQ_eq (S : BlockState) : stateQ S = S := rfl

/-- `out_valid` is 1 exactly in a tick without reset whose inputs decode to `STEP`. -/
theorem outValid_iff_step (t : TickInputs) : outValid t = true ↔ t.rst = false ∧ decode t.cmd = .step := by
  rw [outValid, decode_cmd]
  cases t.load with
  | true => simp
  | false =>
    cases t.next with
    | true => simp
    | false => simp

theorem outData_of_outValid {t : TickInputs} (h : outValid t = true) (S : BlockState) :
    outData S t = outWord (weylInc S) := by
  rw [outData, if_pos h]

/-- What the host reads off the ports is what the network of R7 answers; the idle value of `out_data` is in neither. -/
theorem portResponse_eq_wires_response (S : BlockState) (t : TickInputs) :
    portResponse S t = (wires S t).response := by
  have hvalid : (wires S t).outValid = outValid t := rfl
  rw [portResponse, Wires.response, hvalid, wires_o]
  cases h : outValid t with
  | true => rw [outData_of_outValid h]
  | false => rw [if_neg Bool.false_ne_true, if_neg Bool.false_ne_true]

/-- A presented tick completes, and the host captures what the ports carry in it. -/
theorem step_present_responses (s : State) (t : TickInputs) :
    ∃ u, step (s.present t) = .next u ∧ u.responses = s.responses ++ [portResponse s.S t] := by
  refine ⟨s.commit (wires s.S t).nextS (wires s.S t).response, ?_, ?_⟩
  · rw [step_present, tick_eq_commit_wires]
  · rw [State.commit_responses, portResponse_eq_wires_response]

/-- Settles O31: the two ports by their lemmas, and the captured response by the network's. -/
theorem outputPortsCarryTheResponse : Obligations.OutputPortsCarryTheResponse := fun s t =>
  ⟨rfl, outValid_iff_step t, fun h => outData_of_outValid h s.S, step_present_responses s t⟩

/-- Settles O32: the port shows the register, and each command's commit says what that is. -/
theorem observationPortShowsRegister : Obligations.ObservationPortShowsRegister := by
  refine fun s => ⟨stateQ_eq s.S, ⟨_, exec_step s, ?_⟩, ⟨_, exec_hold s, ?_⟩, fun v => ⟨_, exec_seed v s, ?_⟩⟩
  · rw [stateQ_eq, State.commit_S, weylInc_eq]
  · rw [stateQ_eq, State.commit_S, stateQ_eq]
  · rw [stateQ_eq, State.commit_S]

/-! ## The assembler's pseudo-instructions (R39) -/

/-- A well-formed line assembles to the ticks of its events. -/
theorem assembleLine_of_wellFormed {l : AsmLine} (h : l.wellFormed = true) :
    assembleLine l = .ok ((AsmLine.events l).map HostEvent.inputs) := by
  rw [assembleLine, if_pos h]

/-- What a line assembles to depends on its events and on whether its literal is in range alone. -/
theorem assembleLine_congr {l l' : AsmLine} (hwf : l.wellFormed = l'.wellFormed)
    (hev : AsmLine.events l = AsmLine.events l') : assembleLine l = assembleLine l' := by
  rw [assembleLine, assembleLine, hwf, hev]

theorem assembleLine_step (name : Option (List Char)) : assembleLine (.step name) = .ok [.ofInstr .step] :=
  assembleLine_of_wellFormed (l := .step name) rfl

theorem assembleLine_skip (k : Nat) : assembleLine (.skip k) = .ok (List.replicate k (.ofInstr .step)) := by
  have h := assembleLine_of_wellFormed (l := .skip k) rfl
  rwa [AsmLine.events, List.map_replicate] at h

/-- The tick that presents `STEP` in canonical form runs `STEP`. -/
theorem tick_ofInstr_step (s : State) :
    tick (.ofInstr .step) s = .next (s.commit (weylInc s.S) (some (outWord (weylInc s.S)))) :=
  tick_step rfl (by decide) (by decide) s

/-- A run of `k` ticks of `STEP` completes and has added `k * INC` to the register, modulo `2^32`. -/
theorem runStream_replicate_step_S (k : Nat) (s : State) :
    ∃ t, runStream s (List.replicate k (.ofInstr .step)) = .next t ∧
      t.S.toNat = (s.S.toNat + k * 0x9E3779B9) % 2 ^ 32 := by
  induction k generalizing s with
  | zero =>
    refine ⟨{ s with pending := [] }, runStream_nil s, ?_⟩
    rw [Nat.zero_mul, Nat.add_zero, Nat.mod_eq_of_lt s.S.isLt]
  | succ k ih =>
    obtain ⟨t, hrun, hS⟩ := ih (s.commit (weylInc s.S) (some (outWord (weylInc s.S))))
    refine ⟨t, ?_, ?_⟩
    · rw [List.replicate_succ, runStream_cons (tick_ofInstr_step _)]
      exact hrun
    · rw [hS, State.commit_S, weylInc_eq, toNat_add_inc]
      omega

/-- Settles O46: the expansions have the events of the lines they stand for, and `SKIP k` is a run of `k` ticks of `STEP`. -/
theorem pseudoInstructionsExpand : Obligations.PseudoInstructionsExpand := by
  refine ⟨assembleLine_congr rfl rfl, fun imm => assembleLine_congr rfl rfl, assembleLine_congr rfl rfl,
    assembleLine_congr rfl rfl, fun k s => ?_⟩
  obtain ⟨t, hrun, hS⟩ := runStream_replicate_step_S k s
  exact ⟨_, t, assembleLine_skip k, assembleLine_step none, rfl, hrun, hS⟩

end Sys2Proof.Machine

/-! # Proofs of the seed and hold family (40_seed_hold.md) -/

namespace Sys2Proof.Machine

/-- Settles O19: `HOLD` commits the register's own value and no word. -/
theorem holdKeepsState : Obligations.HoldKeepsState := by
  intro s
  rw [exec_hold, State.commit_eq]

/-- A `STEP` right after `SEED v` commits the successor of `v`, whatever the register held before the `SEED` (R40). -/
theorem exec_step_after_seed (s : State) (v : Word) :
    exec .step (s.commit v none) =
      .next ((s.commit v none).commit (weylInc v) (some (outWord (weylInc v)))) := by
  rw [exec_step, State.commit_S]

/-- Settles O20: `SEED v` commits `v` and no word, the `STEP` after it is `exec_step_after_seed`, and `SEED 0` commits the
value of the reset state. -/
theorem seedLoadsOperand : Obligations.SeedLoadsOperand := by
  refine ⟨fun s v => ⟨?_, _, _, exec_seed v s, exec_step_after_seed s v, ?_, ?_⟩, fun s => ⟨_, exec_seed _ s, ?_⟩⟩
  · rw [exec_seed, State.commit_eq]
  · rw [State.commit_S, weylInc_eq]
  · rw [State.commit_responses, State.commit_responses, List.append_assoc, List.singleton_append, outWord_eq, weylInc_eq]
  · rw [State.commit_S, State.reset_S]

end Sys2Proof.Machine

/-! # Proofs of the step family (41_step.md) -/

namespace Sys2Proof.Machine

/-! ## The Weyl step, once and iterated (R43, R53, R54) -/

/-- Settles O2: the addition as a number is `toNat_add_inc`. -/
theorem weylIncAddsIncModulo : Obligations.WeylIncAddsIncModulo :=
  ⟨toNat_add_inc, by decide, by decide, by decide, by decide, by decide⟩

theorem weylAdd_eq {n : Nat} (c x : BitVec n) : weylAdd c x = x + c := rfl

theorem weylInc_eq_weylAdd : weylInc = weylAdd Config.inc := rfl

/-- The closed form of `k` Weyl steps, at any width. -/
theorem toNat_weylAdd_iterate {n : Nat} (c x : BitVec n) (k : Nat) :
    ((weylAdd c)^[k] x).toNat = (x.toNat + k * c.toNat) % 2 ^ n := by
  induction k generalizing x with
  | zero => rw [Function.iterate_zero_apply, Nat.zero_mul, Nat.add_zero, Nat.mod_eq_of_lt x.isLt]
  | succ k ih =>
    rw [Function.iterate_succ_apply, ih, weylAdd_eq, BitVec.toNat_add, Nat.mod_add_mod, Nat.add_assoc,
      Nat.succ_mul, Nat.add_comm c.toNat]

/-- With an odd increment, two counts of Weyl steps lead to the same value exactly when they agree modulo the number of
values: the increment is a unit there. -/
theorem weylAdd_iterate_eq_iff {n : Nat} {c : BitVec n} (hc : Odd c.toNat) (x : BitVec n) (j k : Nat) :
    (weylAdd c)^[j] x = (weylAdd c)^[k] x ↔ j ≡ k [MOD 2 ^ n] := by
  have hunit : Nat.gcd (2 ^ n) c.toNat = 1 := (Nat.coprime_two_left.mpr hc).pow_left n
  rw [← BitVec.toNat_inj, toNat_weylAdd_iterate, toNat_weylAdd_iterate]
  constructor
  · intro h
    exact Nat.ModEq.cancel_right_of_coprime hunit (Nat.ModEq.add_left_cancel' x.toNat h)
  · intro h
    exact (h.mul_right c.toNat).add_left x.toNat

/-- With an odd increment, the Weyl steps visit every value at exactly one count of a period: counts below `2 ^ n` are told
apart, and there are as many of them as values. -/
theorem weylAdd_iterate_existsUnique {n : Nat} {c : BitVec n} (hc : Odd c.toNat) (x y : BitVec n) :
    ∃! k : Nat, k < 2 ^ n ∧ (weylAdd c)^[k] x = y := by
  have hinj : Function.Injective fun k : BitVec n => (weylAdd c)^[k.toNat] x := fun j k h =>
    BitVec.eq_of_toNat_eq (((weylAdd_iterate_eq_iff hc x _ _).mp h).eq_of_lt_of_lt j.isLt k.isLt)
  obtain ⟨k, hk⟩ := Finite.surjective_of_injective hinj y
  refine ⟨k.toNat, ⟨k.isLt, hk⟩, fun j ⟨hj, hjy⟩ => ?_⟩
  exact ((weylAdd_iterate_eq_iff hc x _ _).mp (hjy.trans hk.symm)).eq_of_lt_of_lt hj k.isLt

theorem odd_toNat_inc : Odd Config.inc.toNat := by decide

/-- The closed form of the block's own Weyl steps, as a number and as a word. -/
theorem toNat_weylInc_iterate (x : Word) (k : Nat) :
    (weylInc^[k] x).toNat = (x.toNat + k * 0x9E3779B9) % 2 ^ 32 := by
  rw [weylInc_eq_weylAdd]
  exact toNat_weylAdd_iterate Config.inc x k

theorem weylInc_iterate (x : Word) (k : Nat) : weylInc^[k] x = BitVec.ofNat 32 (x.toNat + k * 0x9E3779B9) :=
  BitVec.eq_of_toNat_eq ((toNat_weylInc_iterate x k).trans (BitVec.toNat_ofNat _ 32).symm)

/-! ## The rotate by 16 (R44, R45) -/

theorem rotl32_16 (x : Word) : rotl32 x 16 = (x <<< 16) ||| (x >>> 16) := rfl
theorem rotr32_16 (x : Word) : rotr32 x 16 = (x >>> 16) ||| (x <<< 16) := rfl

/-- The exchange of the halves is the left rotate by 16: bits below 16 come from the right shift, the others from the left
one. -/
theorem rotl16_eq_rotl32 (x : Word) : rotl16 x = rotl32 x 16 := by
  rw [rotl32_16]
  apply BitVec.eq_of_getLsbD_eq
  intro i hi
  rw [rotl16_getLsbD, BitVec.getLsbD_or, BitVec.getLsbD_shiftLeft, BitVec.getLsbD_ushiftRight]
  by_cases h : i < 16
  · simp [h, Nat.add_comm]
  · simp [h, hi, BitVec.getLsbD_of_ge x (16 + i) (by omega)]

/-- Rotating by half the width, the two shifts change places. -/
theorem rotl32_eq_rotr32 (x : Word) : rotl32 x 16 = rotr32 x 16 := by
  rw [rotl32_16, rotr32_16, BitVec.or_comm]

/-- The exchanged halves as a number. -/
theorem toNat_rotl16 (x : Word) : (rotl16 x).toNat = (x.toNat * 2 ^ 16) % 2 ^ 32 + x.toNat / 2 ^ 16 := by
  have hx := x.isLt
  rw [rotl16_eq, BitVec.toNat_append, ← Nat.shiftLeft_add_eq_or_of_lt (BitVec.isLt _), Nat.shiftLeft_eq,
    BitVec.extractLsb'_toNat, BitVec.extractLsb'_toNat, Nat.shiftRight_zero, Nat.shiftRight_eq_div_pow]
  omega

/-- Settles O4: the four forms of the rotate, and the examples. -/
theorem rotl16ExchangesHalves : Obligations.Rotl16ExchangesHalves := by
  refine ⟨fun x => ⟨rotl16_eq_rotl32 x, rotl16_eq x, fun i hi => ⟨?_, ?_⟩, toNat_rotl16 x⟩,
    by decide, by decide, by decide, by decide, by decide⟩
  · rw [rotl16_getLsbD, if_neg (by omega), Nat.add_sub_cancel, decide_eq_true (by omega), Bool.true_and]
  · rw [rotl16_getLsbD, if_pos hi]

/-- Settles O5: `rotl16` is the left rotate, which is the right one. -/
theorem rotatesBy16Coincide : Obligations.RotatesBy16Coincide := fun x =>
  ⟨rotl32_eq_rotr32 x, rotl16_eq_rotl32 x, (rotl16_eq_rotl32 x).trans (rotl32_eq_rotr32 x)⟩

/-! ## The multiplication and the mixer (R46, R47) -/

theorem toNat_mul32 (a b : Word) : (mul32 a b).toNat = (a.toNat * b.toNat) % 2 ^ 32 := BitVec.toNat_mul a b

/-- Settles O7: the product as a number is `toNat_mul32`. -/
theorem mul32KeepsLow32Bits : Obligations.Mul32KeepsLow32Bits :=
  ⟨toNat_mul32, by decide, by decide, by decide, by decide, by decide⟩

/-- Settles O9: the mixer is a `mul32`, whose number is `toNat_mixer`. -/
theorem mixerIsProductWithOwnRotation : Obligations.MixerIsProductWithOwnRotation :=
  ⟨fun x => ⟨(mixer_eq x).trans (mul32_eq x (rotl16 x)).symm, toNat_mixer x⟩,
    by decide, by decide, by decide, by decide, by decide, by decide, by decide, by decide, by decide⟩

/-! ## The fold (R48) -/

/-- The logical shift by 16 is the quotient by `2^16`. -/
theorem ushiftRight_16_eq_ofNat_div (x : Word) : x >>> 16 = BitVec.ofNat 32 (x.toNat / 2 ^ 16) := by
  have hx := x.isLt
  apply BitVec.eq_of_toNat_eq
  rw [BitVec.toNat_ushiftRight, BitVec.toNat_ofNat, Nat.shiftRight_eq_div_pow, Nat.mod_eq_of_lt (by omega)]

/-- `fold` in halves: the high half stands, and is mixed into the low one. -/
theorem fold_eq_append (x : Word) :
    fold x = x.extractLsb' 16 16 ++ (x.extractLsb' 0 16 ^^^ x.extractLsb' 16 16) := by
  rw [fold_eq]
  apply BitVec.eq_of_getLsbD_eq
  intro i hi
  rw [BitVec.getLsbD_xor, BitVec.getLsbD_ushiftRight, BitVec.getLsbD_append]
  by_cases h : i < 16
  · simp [h]
  · have hlow : i - 16 < 16 := by omega
    have hback : 16 + (i - 16) = i := by omega
    simp [h, hlow, hback, BitVec.getLsbD_of_ge x (16 + i) (by omega)]

/-- An arithmetic shift would clear bit 31 of a word in which it is 1, where `fold` keeps it (C2). -/
theorem fold_ne_xor_sshiftRight {x : Word} (hx : x.msb = true) : fold x ≠ x ^^^ x.sshiftRight 16 := by
  intro h
  have hlogical : (fold x).msb = true := by simp [fold_eq, hx]
  have harithmetic : (x ^^^ x.sshiftRight 16).msb = false := by simp [BitVec.msb_sshiftRight]
  rw [h, harithmetic] at hlogical
  exact Bool.false_ne_true hlogical

/-- Settles O10: the shift as a quotient, the form in halves, bit 31 against an arithmetic shift, and the examples. -/
theorem foldMixesHighHalfIntoLow : Obligations.FoldMixesHighHalfIntoLow := by
  refine ⟨fun x => ⟨?_, fold_eq_append x, fold_ne_xor_sshiftRight⟩,
    by decide, by decide, by decide, by decide, by decide, by decide, by decide⟩
  rw [fold_eq, ushiftRight_16_eq_ofNat_div]

/-! ## `STEP`, once and repeated (R50, R53, R54) -/

/-- The output word by the pseudocode of R50. -/
theorem outWord_eq_wires (w : Word) :
    outWord w = (w * (w.extractLsb' 0 16 ++ w.extractLsb' 16 16)) ^^^
      ((w * (w.extractLsb' 0 16 ++ w.extractLsb' 16 16)) >>> 16) := by
  rw [outWord_eq, fold_eq, mixer_eq, rotl16_eq]

/-- Settles O21: the commit of `STEP`, the output word wire by wire. -/
theorem stepStoresWeylValueAndAnswersOutput : Obligations.StepStoresWeylValueAndAnswersOutput := by
  intro s
  rw [exec_step, State.commit_eq, outWord_eq_wires, weylInc_eq]

/-- The responses of `n` consecutive `STEP`s from the register value `S`: the output words of the `n` states after it. -/
def stepResponses (S : Word) (n : Nat) : List Response :=
  (List.iterate weylInc (weylInc S) n).map fun w => some (outWord w)

@[simp] theorem stepResponses_zero (S : Word) : stepResponses S 0 = [] := rfl

/-- The first response of a run of `STEP`s, and the others, which are those of the run from the next state. -/
theorem stepResponses_succ (S : Word) (n : Nat) :
    stepResponses S (n + 1) = some (outWord (weylInc S)) :: stepResponses (weylInc S) n := rfl

/-- The responses with every state in closed form. -/
theorem stepResponses_eq (S : Word) (n : Nat) :
    stepResponses S n = (List.range n).map
      fun j => some (fold (mixer (BitVec.ofNat 32 (S.toNat + (j + 1) * 0x9E3779B9)))) := by
  rw [stepResponses, ← List.range_map_iterate, List.map_map]
  refine List.map_congr_left fun j _ => ?_
  rw [Function.comp_apply, ← Function.iterate_succ_apply, weylInc_iterate, outWord_eq]

/-- All that a run of `n` `STEP`s leaves: the register `n` Weyl steps on, the list exhausted, one response a step. -/
theorem runStream_replicate_step (n : Nat) (s : State) :
    runStream s (List.replicate n (.ofInstr .step)) =
      .next { S := weylInc^[n] s.S, pending := [], responses := s.responses ++ stepResponses s.S n } := by
  induction n generalizing s with
  | zero =>
    rw [List.replicate_zero, runStream_nil, Function.iterate_zero_apply, stepResponses_zero, List.append_nil]
  | succ n ih =>
    rw [List.replicate_succ, runStream_cons (tick_ofInstr_step _), ih, State.commit_S, State.commit_responses,
      List.append_assoc, List.singleton_append, ← stepResponses_succ, ← Function.iterate_succ_apply]

/-- The tick that presents `SEED v` in canonical form runs `SEED v`. -/
theorem tick_ofInstr_seed (v : Word) (s : State) : tick (.ofInstr (.seed v)) s = .next (s.commit v none) := by
  have hload : fieldLoad (encode (.seed v)) = true := by simp [fieldLoad, getLsbD_encode_seed]
  have hseed : fieldSeedIn (encode (.seed v)) = v := by
    apply BitVec.eq_of_getLsbD_eq
    intro i hi
    rw [fieldSeedIn_getLsbD _ hi, getLsbD_encode_seed, decide_eq_false (by omega), Bool.false_or]
  rw [TickInputs.ofInstr, tick_seed rfl hload, ofCommandWord_seedIn, hseed]

/-- A run of `SEED v` and then `n` `STEP`s is the run of the `STEP`s from the state that the `SEED` commits. -/
theorem runStream_seed_replicate_step (v : Word) (n : Nat) (s : State) :
    runStream s (.ofInstr (.seed v) :: List.replicate n (.ofInstr .step)) =
      .next { S := weylInc^[n] v, pending := [], responses := s.responses ++ none :: stepResponses v n } := by
  rw [runStream_cons (tick_ofInstr_seed v _), runStream_replicate_step, State.commit_S, State.commit_responses,
    List.append_assoc, List.singleton_append]

/-- Settles O35: both runs have a known end, whose register and responses have closed forms. -/
theorem closedFormAfterSteps : Obligations.ClosedFormAfterSteps := by
  refine ⟨fun s n => ⟨_, runStream_replicate_step n s, toNat_weylInc_iterate s.S n, ?_⟩,
    fun s s0 n => ⟨_, runStream_seed_replicate_step s0 n s, toNat_weylInc_iterate s0 n, ?_⟩⟩
  · rw [← stepResponses_eq]
  · rw [← stepResponses_eq]

/-- A run of `k` `STEP`s reaches the register value `v` exactly when `k` Weyl steps do. -/
theorem runStream_replicate_step_reaches_iff (s : State) (k : Nat) (v : Word) :
    (∃ t, runStream s (List.replicate k (.ofInstr .step)) = .next t ∧ t.S = v) ↔ weylInc^[k] s.S = v := by
  rw [runStream_replicate_step]
  constructor
  · rintro ⟨t, ht, rfl⟩
    exact congrArg State.S (Host.Outcome.next.inj ht)
  · intro hv
    exact ⟨_, rfl, hv⟩

/-- Settles O37: the increment is odd, so the counts that return are those that agree with 0 modulo `2^32`, and each value
has one count in a period. -/
theorem stateHasFullPeriod : Obligations.StateHasFullPeriod := by
  refine fun s => ⟨fun k => ?_, fun v => ?_⟩
  · rw [runStream_replicate_step_reaches_iff, weylInc_eq_weylAdd]
    exact (weylAdd_iterate_eq_iff odd_toNat_inc s.S k 0).trans Nat.modEq_zero_iff_dvd
  · simp only [runStream_replicate_step_reaches_iff, weylInc_eq_weylAdd]
    exact weylAdd_iterate_existsUnique odd_toNat_inc s.S v

end Sys2Proof.Machine

/-! # Proofs of the host layer family (45_host_layer.md) -/

namespace Sys2Proof.Machine

/-! ## One call on the Sampler Layer (R58) -/

/-- `nextUint32()` reads the response that the `STEP` just committed and leaves the committed state. -/
theorem nextUint32_eq (s : State) :
    nextUint32 s = some (outWord (weylInc s.S), s.commit (weylInc s.S) (some (outWord (weylInc s.S)))) := by
  simp only [nextUint32, exec_step, State.commit_responses, List.getLast?_concat]

/-- Settles O47: the state left is the one `STEP` commits, and the word is its response. -/
theorem nextUint32IsOneStep : Obligations.NextUint32IsOneStep := fun s =>
  ⟨_, exec_step s, nextUint32_eq s, State.commit_S s _ _⟩

/-! ## The Functional Embodiment beside the Sampler Layer (R61) -/

@[simp] theorem samplerSequence_zero (s : State) : samplerSequence 0 s = some ([], s) := rfl

@[simp] theorem embodimentSequence_zero (kept : Word) : embodimentSequence 0 kept = ([], kept) := rfl

/-- Each invocation gives one word. -/
theorem length_embodimentSequence (n : Nat) (kept : Word) : (embodimentSequence n kept).1.length = n := by
  induction n generalizing kept with
  | zero => rw [embodimentSequence_zero, List.length_nil]
  | succ n ih => rw [embodimentSequence_succ, List.length_cons, ih]

/-- From every state the Sampler Layer gives the words of an embodiment that keeps the register's value, and both move on
alike: one `STEP` and one invocation leave the register and the kept word equal again. -/
theorem samplerSequence_eq_embodimentSequence (n : Nat) (s : State) :
    ∃ u, samplerSequence n s = some ((embodimentSequence n s.S).1, u) ∧ u.S = (embodimentSequence n s.S).2 := by
  induction n generalizing s with
  | zero => exact ⟨s, samplerSequence_zero s, rfl⟩
  | succ n ih =>
    obtain ⟨u, hwords, hkept⟩ := ih (s.commit (weylInc s.S) (some (outWord (weylInc s.S))))
    rw [State.commit_S] at hwords hkept
    rw [embodimentSequence_succ]
    exact ⟨u, samplerSequence_succ (nextUint32_eq s) hwords, hkept⟩

/-- Settles O51: `SEED` commits the seed, which the embodiment keeps at first, and from equal words the two agree. -/
theorem embodimentMatchesSampler : Obligations.EmbodimentMatchesSampler := by
  intro s seed n
  obtain ⟨u, hwords, hkept⟩ := samplerSequence_eq_embodimentSequence n (s.commit seed none)
  rw [State.commit_S] at hwords hkept
  exact ⟨_, u, exec_seed seed s, hwords, hkept, length_embodimentSequence n seed⟩

end Sys2Proof.Machine

/-! # Proofs of the exceptions family (60_exceptions.md) -/

namespace Sys2Proof.Machine

/-- Settles O26: one case for each arm of R66's priority, from the tick lemma of that arm. -/
theorem resetThenLoadThenNextPriority : Obligations.ResetThenLoadThenNextPriority := by
  intro s t
  rw [step_present]
  cases hr : t.rst with
  | true => rw [if_pos rfl, tick_reset hr, State.commit_eq]
  | false =>
    rw [if_neg Bool.false_ne_true]
    cases hl : t.load with
    | true => rw [if_pos rfl, tick_seed hr hl, State.commit_eq]
    | false =>
      rw [if_neg Bool.false_ne_true]
      cases hn : t.next with
      | true => rw [if_pos rfl, tick_step hr hl hn, State.commit_eq, outWord_eq, weylInc_eq]
      | false => rw [if_neg Bool.false_ne_true, tick_hold hr hl hn, State.commit_eq]

end Sys2Proof.Machine

/-! # Proofs of the reset and hazards family (70_reset_and_hazards.md) -/

namespace Sys2Proof.Machine

/-! ## A run over any stream of ticks (R82) -/

/-- Every stream of ticks runs to its end from every state: each tick commits, and so adds one response. -/
theorem runStream_completes (s : State) (ts : List TickInputs) :
    ∃ t, runStream s ts = .next t ∧ t.pending = [] ∧
      ∃ given : List Response, t.responses = s.responses ++ given ∧ given.length = ts.length := by
  induction ts generalizing s with
  | nil => exact ⟨_, runStream_nil s, rfl, [], (List.append_nil _).symm, rfl⟩
  | cons u us ih =>
    obtain ⟨v, r, htick⟩ := tick_commits u { s with pending := us }
    obtain ⟨t, hrun, hpending, given, hresponses, hlength⟩ := ih (s.commit v r)
    refine ⟨t, (runStream_cons htick).trans hrun, hpending, r :: given, ?_, ?_⟩
    · rw [hresponses, State.commit_responses, List.append_assoc, List.singleton_append]
    · rw [List.length_cons, List.length_cons, hlength]

/-- Settles O34: the host's events are a stream of as many ticks. -/
theorem runTakesEveryHostEvent : Obligations.RunTakesEveryHostEvent := by
  intro s events
  obtain ⟨t, hrun, hpending, given, hresponses, hlength⟩ := runStream_completes s (events.map HostEvent.inputs)
  exact ⟨t, hrun, hpending, given, hresponses, hlength.trans (List.length_map _)⟩

/-! ## The reset tick (R73) -/

/-- While `rst` is driven `out_valid` is 0, so the ports carry no response. -/
theorem portResponse_of_rst {t : TickInputs} (h : t.rst = true) (S : BlockState) : portResponse S t = none := by
  rw [portResponse_eq_wires_response, Wires.response, wires_outValid, h, Bool.not_true, Bool.and_false,
    if_neg Bool.false_ne_true]

/-- Settles O27: `tick_reset` and `portResponse_of_rst` ask nothing of the command inputs. -/
theorem resetTickIgnoresCommandInputs : Obligations.ResetTickIgnoresCommandInputs := by
  intro s load next seedIn
  refine ⟨?_, portResponse_of_rst rfl s.S⟩
  rw [step_present, tick_reset rfl, State.commit_eq]

end Sys2Proof.Machine

/-! # Proofs of the remaining statements: the spec's own inferences, the invariant, the machine's run and the block's -/

namespace Sys2Proof

/-! ## The road from a command to its word and back (R33, R36, R38) -/

theorem fieldLoad_encode_seed (v : Word) : fieldLoad (encode (.seed v)) = true := by
  rw [fieldLoad, getLsbD_encode_seed, decide_eq_true rfl, Bool.true_or]

theorem fieldSeedIn_encode_seed (v : Word) : fieldSeedIn (encode (.seed v)) = v := by
  apply BitVec.eq_of_getLsbD_eq
  intro i hi
  rw [fieldSeedIn_getLsbD _ hi, getLsbD_encode_seed, decide_eq_false (by omega), Bool.false_or]

/-- The encoder's word has the fields of its command, so the decoder reads the command back. -/
theorem decode_encode (i : Instr) : decode (encode i) = i := by
  cases i with
  | hold => decide
  | step => decide
  | seed v => rw [decode_of_load (fieldLoad_encode_seed v), fieldSeedIn_encode_seed]

/-- The ports that carry a command word carry all of it: its fields, joined again, are the word. -/
@[simp] theorem cmd_ofCommandWord (c : CommandWord) : (TickInputs.ofCommandWord c).cmd = c := by
  apply BitVec.eq_of_getLsbD_eq
  intro i hi
  rw [TickInputs.cmd, BitVec.getLsbD_append, BitVec.getLsbD_append]
  have hfields : i < 32 ∨ i = 32 ∨ i = 33 := by omega
  obtain hlow | rfl | rfl := hfields
  · rw [if_pos hlow, ofCommandWord_seedIn, fieldSeedIn_getLsbD c hlow]
  · simp [fieldNext]
  · simp [fieldLoad]

theorem cmd_ofInstr (i : Instr) : (TickInputs.ofInstr i).cmd = encode i := cmd_ofCommandWord (encode i)

theorem decode_cmd_ofInstr (i : Instr) : decode (TickInputs.ofInstr i).cmd = i := by
  rw [cmd_ofInstr, decode_encode]

theorem decodeNat_of_lt {w : Nat} (h : w < 2 ^ 34) : decodeNat w = .ok (decode (BitVec.ofNat 34 w)) := by
  rw [decodeNat, if_pos h]

theorem decodeNat_of_le {w : Nat} (h : 2 ^ 34 ≤ w) : decodeNat w = .error .widerThanCommandWord := by
  rw [decodeNat, if_neg (Nat.not_lt.mpr h)]

/-- A table word is read as the command word it is, if it is no wider. -/
theorem decodeTableWord_eq_some_iff (nbits w : Nat) (i : Instr) :
    decodeTableWord nbits w = some i ↔
      w % 2 ^ nbits < 2 ^ 34 ∧ decode (BitVec.ofNat 34 (w % 2 ^ nbits)) = i := by
  rw [decodeTableWord]
  obtain h | h := Nat.lt_or_ge (w % 2 ^ nbits) (2 ^ 34)
  · simp only [decodeNat_of_lt h, Option.some.injEq, h, true_and]
  · simp only [decodeNat_of_le h, reduceCtorEq, Nat.not_lt.mpr h, false_and]

/-- Settles O16: the decoder undoes the encoder, the ports carry the word unchanged, and its number is below `2^34`. -/
theorem decodeOfEncodeIsIdentity : Obligations.DecodeOfEncodeIsIdentity := by
  intro i _
  refine ⟨decode_encode i, cmd_ofInstr i, decode_cmd_ofInstr i, ?_⟩
  have hlt : (encode i).toNat < 2 ^ 34 := (encode i).isLt
  rw [decodeTableWord_eq_some_iff, Nat.mod_eq_of_lt hlt, BitVec.ofNat_toNat, BitVec.setWidth_eq]
  exact ⟨hlt, decode_encode i⟩

/-! ## The ignored bits (R34, R36) -/

/-- The mask of a `SEED` word keeps all bits but `next`. -/
theorem getLsbD_seedMask {i : Nat} (hi : i < 34) :
    (0x2FFFFFFFF#34).getLsbD i = (decide (i = 33) || decide (i < 32)) := by
  revert i
  decide

/-- With `load` set, the encoder writes the word itself but for the bit `next`, which it clears. -/
theorem encode_seed_fieldSeedIn {c : CommandWord} (hl : fieldLoad c = true) :
    encode (.seed (fieldSeedIn c)) = c &&& 0x2FFFFFFFF#34 := by
  apply BitVec.eq_of_getLsbD_eq
  intro i hi
  rw [getLsbD_encode_seed, BitVec.getLsbD_and, getLsbD_seedMask hi]
  by_cases hlow : i < 32
  · rw [fieldSeedIn_getLsbD c hlow, decide_eq_false (by omega), decide_eq_true hlow, Bool.false_or, Bool.or_true,
      Bool.and_true]
  · rw [BitVec.getLsbD_of_ge (fieldSeedIn c) i (by omega), decide_eq_false hlow, Bool.or_false]
    by_cases htop : i = 33
    · have hbit : c.getLsbD 33 = true := hl
      rw [htop, hbit, Bool.true_and]
    · rw [decide_eq_false htop, Bool.and_false]

/-- Encoding what a word decodes to clears its ignored bits: one case for each row of the command table. -/
theorem encode_decode (c : CommandWord) : encode (decode c) = canonical c := by
  unfold canonical
  cases hl : fieldLoad c with
  | true => rw [decode_of_load hl, if_pos rfl, encode_seed_fieldSeedIn hl]
  | false =>
    rw [if_neg Bool.false_ne_true, and_nextMask]
    cases hn : fieldNext c with
    | true => rw [decode_of_next hl hn, if_pos rfl, encode]
    | false => rw [decode_of_neither hl hn, if_neg Bool.false_ne_true, encode]

/-- A word and its canonical word have the same meaning. -/
theorem decode_canonical (c : CommandWord) : decode (canonical c) = decode c := by
  rw [← encode_decode, decode_encode]

/-- Settles O17: `canonical` is the road over the command, which it does not change. -/
theorem encodeOfDecodeIsCanonical : Obligations.EncodeOfDecodeIsCanonical := by
  refine ⟨fun c => ⟨encode_decode c, ?_⟩, fun c c' => ⟨fun h => ?_, fun h => ?_⟩⟩
  · rw [← encode_decode (canonical c), decode_canonical, encode_decode]
  · rw [← encode_decode, h, encode_decode]
  · rw [← decode_canonical, h, decode_canonical]

/-- Settles O18: the decoder run on the eight words. -/
theorem tableWordsDecode : Obligations.TableWordsDecode :=
  ⟨by decide, by decide, by decide, by decide, by decide, by decide, by decide, by decide⟩

end Sys2Proof

namespace Sys2Proof.Machine

/-! ## The block's tick and the machine's (R6, R66) -/

theorem blockTick_reset {t : TickInputs} (h : t.rst = true) (S : BlockState) :
    blockTick S t = (0x00000000#32, none) := by
  rw [blockTick, if_pos h, blockReset]

theorem blockTick_command {t : TickInputs} (h : t.rst = false) (S : BlockState) :
    blockTick S t = blockExec S (decode t.cmd) := by
  rw [blockTick, h, if_neg Bool.false_ne_true]

theorem blockTick_seed {t : TickInputs} (hr : t.rst = false) (hl : t.load = true) (S : BlockState) :
    blockTick S t = (t.seedIn, none) := by
  rw [blockTick_command hr, decode_cmd, if_pos hl, blockExec, blockSeed]

theorem blockTick_step {t : TickInputs} (hr : t.rst = false) (hl : t.load = false) (hn : t.next = true)
    (S : BlockState) : blockTick S t = (weylInc S, some (outWord (weylInc S))) := by
  rw [blockTick_command hr, decode_cmd, if_neg (by simp [hl]), if_pos hn, blockExec, blockStep, transition_eq]

theorem blockTick_hold {t : TickInputs} (hr : t.rst = false) (hl : t.load = false) (hn : t.next = false)
    (S : BlockState) : blockTick S t = (S, none) := by
  rw [blockTick_command hr, decode_cmd, if_neg (by simp [hl]), if_neg (by simp [hn]), blockExec, blockHold]

theorem blockTick_ofInstr (i : Instr) (S : BlockState) : blockTick S (.ofInstr i) = blockExec S i := by
  rw [blockTick_command rfl, decode_cmd_ofInstr]

/-- A tick commits what the block's own tick answers on the register. -/
theorem tick_eq_commit_blockTick (t : TickInputs) (s : State) :
    tick t s = .next (s.commit (blockTick s.S t).1 (blockTick s.S t).2) := by
  cases hr : t.rst with
  | true => rw [tick_reset hr, blockTick_reset hr]
  | false => rw [tick_command hr, blockTick_command hr, exec_eq_commit_blockExec]

/-- The response of the block's tick is what the host reads off the ports: both are what the machine's tick captures. -/
theorem blockTick_response (S : BlockState) (t : TickInputs) : (blockTick S t).2 = portResponse S t := by
  have hcommit := Host.Outcome.next.inj
    ((tick_eq_commit_blockTick t { S := S, pending := [], responses := [] }).symm.trans (tick_eq_commit_wires t _))
  obtain ⟨_, hresponse⟩ := State.commit_inj.mp hcommit
  rw [hresponse, portResponse_eq_wires_response]

/-- A word that a tick gives is the output of the register value that the same tick stores (R50). -/
theorem blockTick_word {S : BlockState} {t : TickInputs} {o : Word} (h : (blockTick S t).2 = some o) :
    o = outWord (blockTick S t).1 := by
  cases hr : t.rst with
  | true => simp [blockTick_reset hr] at h
  | false =>
    cases hl : t.load with
    | true => simp [blockTick_seed hr hl] at h
    | false =>
      cases hn : t.next with
      | true =>
        rw [blockTick_step hr hl hn] at h ⊢
        exact (Option.some.inj h).symm
      | false => simp [blockTick_hold hr hl hn] at h

/-! ## What one step does, for the two forms of the host's list (R24, R82; log 2) -/

theorem step_of_pending_nil {s : State} (h : s.pending = []) : step s = .refused .endOfRun := by
  rw [step, (takeTick_none s).mpr h]

theorem step_of_pending_cons {s : State} {u : TickInputs} {us : List TickInputs} (h : s.pending = u :: us) :
    step s = .next (({ s with pending := us } : State).commit (blockTick s.S u).1 (blockTick s.S u).2) := by
  have hstep := step_cons s u us
  rwa [← h, tick_eq_commit_blockTick] at hstep

/-- A step that completes took a pending tick and committed what the block's tick answers. -/
theorem step_eq_next {s t : State} (h : step s = .next t) :
    ∃ u us, s.pending = u :: us ∧
      t = ({ s with pending := us } : State).commit (blockTick s.S u).1 (blockTick s.S u).2 := by
  cases hp : s.pending with
  | nil => simp [step_of_pending_nil hp] at h
  | cons u us =>
    rw [step_of_pending_cons hp] at h
    exact ⟨u, us, rfl, (Host.Outcome.next.inj h).symm⟩

/-- A commit keeps the transcript invariant when the word it records, if any, is the output of the register it stores. -/
theorem transcriptInv_commit {s : State} {v : BlockState} {r : Response}
    (hs : ∀ o, some o ∈ s.responses → ∃ w, o = outWord w) (hr : ∀ o, r = some o → o = outWord v) :
    (s.commit v r).TranscriptInv := by
  constructor
  · intro o ho
    rw [State.commit_responses, List.mem_append, List.mem_singleton] at ho
    obtain hearlier | hnow := ho
    · exact hs o hearlier
    · exact ⟨v, hr o hnow.symm⟩
  · intro o ho
    rw [State.commit_responses, List.getLast?_concat] at ho
    exact hr o (Option.some.inj ho)

/-- Settles O41: a step is a commit, whose word is the output of the register it stores. -/
theorem stepKeepsTranscriptInvariant : Obligations.StepKeepsTranscriptInvariant := by
  intro s t ⟨hwords, _⟩ hstep
  obtain ⟨u, us, _, rfl⟩ := step_eq_next hstep
  exact transcriptInv_commit hwords fun _ => blockTick_word

/-- Settles O42: no response is recorded in the reset state. -/
theorem transcriptInvariantHoldsAtReset : Obligations.TranscriptInvariantHoldsAtReset := by
  refine ⟨fun o ho => ?_, fun o ho => ?_⟩
  · rw [State.reset_responses] at ho
    exact absurd ho List.not_mem_nil
  · rw [State.reset_responses] at ho
    cases ho

/-- Settles O29: a pending tick is committed, and without one the step is refused. -/
theorem stepCompletesIffEventPending : Obligations.StepCompletesIffEventPending := by
  intro s
  cases hp : s.pending with
  | nil => simp [step_of_pending_nil hp]
  | cons u us => simp [step_of_pending_cons hp]

/-- Settles O30: the step's commit leaves the rest of the list pending and records what the ports carried. -/
theorem stepTakesOneTickGivesOneResponse : Obligations.StepTakesOneTickGivesOneResponse := by
  intro s t hstep
  obtain ⟨u, us, hp, rfl⟩ := step_eq_next hstep
  refine ⟨u, us, hp, State.commit_pending _ _ _, ?_⟩
  rw [State.commit_responses, blockTick_response]

/-- Settles O52: the block's equations are its definitions, and a command and a tick commit what it answers. -/
theorem execIsBlockStepFunction : Obligations.ExecIsBlockStepFunction := by
  refine ⟨fun S => ⟨rfl, rfl, fun v => rfl, rfl⟩, fun i s => ?_, fun t s => ?_⟩
  · rw [exec_eq_commit_blockExec, State.commit_eq]
  · rw [step_present, tick_eq_commit_blockTick, State.commit_eq]

/-- A tick that presents a command word without reset runs what the word decodes to. -/
theorem tick_ofCommandWord (c : CommandWord) (s : State) : tick (.ofCommandWord c) s = exec (decode c) s := by
  rw [tick_command (ofCommandWord_rst c), cmd_ofCommandWord]

theorem tick_ofInstr (i : Instr) (s : State) : tick (.ofInstr i) s = exec i s := by
  rw [TickInputs.ofInstr, tick_ofCommandWord, decode_encode]

/-- Settles O25: the head of the list, the canonical tick and the table word's tick each run the decoded command. -/
theorem stepRunsDecodedCommand : Obligations.StepRunsDecodedCommand := by
  refine ⟨fun s t ts hr => ?_, fun s i _ => ?_, fun s nbits w i hi => ?_⟩
  · rw [step_cons, tick_command hr]
  · rw [step_present, tick_ofInstr]
  · obtain ⟨_, hdecode⟩ := (decodeTableWord_eq_some_iff nbits w i).mp hi
    rw [State.withFetchWord, step_present, tick_ofCommandWord, hdecode]

/-- Settles O28: a reset tick and `SEED 0` commit the same; from there the next `STEP`'s values are computed. -/
theorem resetEqualsSeedZero : Obligations.ResetEqualsSeedZero := by
  intro s
  refine ⟨?_, s.commit 0x00000000#32 none, step_present_reset s, ?_, _,
    (step_present _ _).trans (tick_ofInstr_step _), ?_, ?_⟩
  · rw [step_present_reset, step_present, tick_ofInstr_seed]
  · rw [step_present_reset, State.commit_eq, State.commit_eq]
  · rw [State.commit_S, State.commit_S]
    decide
  · have hword : outWord (weylInc 0x00000000#32) = 0xA2BCF603#32 := by decide
    rw [State.commit_responses, State.commit_S, hword, State.commit_responses, List.append_assoc,
      List.singleton_append]

/-! ## The corner cases and the idempotency of the commands (R23, R50) -/

/-- A row of the corner-case table: two words to compute, which `STEP` commits whatever the lists hold. -/
theorem exec_step_of_words {S w o : Word} (hstored : weylInc S = w) (hword : outWord w = o)
    (pending : List TickInputs) (responses : List Response) :
    exec .step { S := S, pending := pending, responses := responses } =
      .next { S := w, pending := pending, responses := responses ++ [some o] } := by
  rw [exec_step, State.commit_eq, hstored, hword]

/-- Settles O22: the two words of each row are computed. -/
theorem stepCornerCases : Obligations.StepCornerCases := by
  simp only [Obligations.StepCornerCases, List.forall_mem_cons]
  exact ⟨exec_step_of_words (by decide) (by decide), exec_step_of_words (by decide) (by decide),
    exec_step_of_words (by decide) (by decide), exec_step_of_words (by decide) (by decide),
    exec_step_of_words (by decide) (by decide), exec_step_of_words (by decide) (by decide),
    exec_step_of_words (by decide) (by decide), exec_step_of_words (by decide) (by decide), List.forall_mem_nil _⟩

/-- The increment is not 0 modulo `2^32`. -/
theorem weylInc_ne_self (x : Word) : weylInc x ≠ x := by
  intro h
  have hnat := congrArg BitVec.toNat h
  rw [weylInc_eq, toNat_add_inc] at hnat
  have hx := x.isLt
  omega

/-- Settles O23: the commits of `HOLD` and `SEED` write the same value twice, and a `STEP` never keeps the register's. -/
theorem onlyStepIsNotIdempotent : Obligations.OnlyStepIsNotIdempotent := by
  refine fun s => ⟨⟨_, _, exec_hold s, exec_hold _, ?_, ?_⟩,
    fun v => ⟨_, _, exec_seed v s, exec_seed v _, ?_, ?_⟩, _, _, exec_step s, exec_step _, ?_, ?_, ?_⟩
  · rw [State.commit_S]
  · rw [State.commit_S]
  · rw [State.commit_S]
  · rw [State.commit_S, State.commit_S]
  · rw [State.commit_S, weylInc_eq]
  · rw [State.commit_S]
    exact weylInc_ne_self s.S
  · rw [State.commit_S]
    exact weylInc_ne_self _

/-! ## A run of the machine is the block's own run (R16, R82) -/

/-- Settles O53: by induction on the stream, each tick committing what the block's tick answers. -/
theorem registerIsTheWholeStateOfARun : Obligations.RegisterIsTheWholeStateOfARun := by
  intro s ts
  induction ts generalizing s with
  | nil => rw [runStream_nil, runBlock_nil, List.append_nil]
  | cons t ts ih =>
    rw [runStream_cons (tick_eq_commit_blockTick t _), ih, runBlock_cons, State.commit_S, State.commit_responses,
      List.append_assoc, List.singleton_append]

/-- The block's run over two streams in a row: the second starts at the register the first leaves. -/
theorem runBlock_append (S : BlockState) (ts us : List TickInputs) :
    runBlock S (ts ++ us) =
      ((runBlock (runBlock S ts).1 us).1, (runBlock S ts).2 ++ (runBlock (runBlock S ts).1 us).2) := by
  induction ts generalizing S with
  | nil => rw [List.nil_append, runBlock_nil, List.nil_append]
  | cons t ts ih => rw [List.cons_append, runBlock_cons, ih, runBlock_cons, List.cons_append]

theorem length_runBlock (S : BlockState) (ts : List TickInputs) : (runBlock S ts).2.length = ts.length := by
  induction ts generalizing S with
  | nil => rw [runBlock_nil, List.length_nil, List.length_nil]
  | cons t ts ih => rw [runBlock_cons, List.length_cons, List.length_cons, ih]

/-- Settles O39: the block's tick of a `HOLD` keeps the register and adds an empty response, which is no output word. -/
theorem holdsAnywhereAreInvisible : Obligations.HoldsAnywhereAreInvisible := by
  intro s before after junk
  refine ⟨_, _, registerIsTheWholeStateOfARun s _, registerIsTheWholeStateOfARun s _, ?_, ?_⟩
  · rw [runBlock_append, runBlock_append, runBlock_cons, blockTick_hold rfl rfl rfl]
  · rw [runBlock_append, runBlock_append, runBlock_cons, blockTick_hold rfl rfl rfl]
    simp [State.outputs]

/-! ## What a run forgets (R42, R76) -/

/-- A tick that initialises does the same from every register value. -/
theorem blockTick_of_initialises {t : TickInputs} (h : initialises t = true) (S U : BlockState) :
    blockTick S t = blockTick U t := by
  cases hr : t.rst with
  | true => rw [blockTick_reset hr, blockTick_reset hr]
  | false =>
    have hl : t.load = true := by simpa [initialises, hr] using h
    rw [blockTick_seed hr hl, blockTick_seed hr hl]

/-- With the host's duty met, the block's responses do not depend on the register it starts with, nor, once initialised, does
the register it ends with: until the initialising tick there are holds alone. -/
theorem runBlock_of_hostInitialises {ts : List TickInputs} (h : hostInitialises ts = true) (S U : BlockState) :
    (runBlock S ts).2 = (runBlock U ts).2 ∧
      (ts.any initialises = true → (runBlock S ts).1 = (runBlock U ts).1) := by
  induction ts with
  | nil => simp
  | cons t ts ih =>
    rw [runBlock_cons, runBlock_cons]
    cases hi : initialises t with
    | true =>
      rw [blockTick_of_initialises hi S U]
      exact ⟨rfl, fun _ => rfl⟩
    | false =>
      obtain ⟨hr, hl⟩ : t.rst = false ∧ t.load = false := by simpa [initialises] using hi
      obtain ⟨hn, hrest⟩ : t.next = false ∧ hostInitialises ts = true := by simpa [hostInitialises, hi] using h
      obtain ⟨hresponses, hregister⟩ := ih hrest
      rw [blockTick_hold hr hl hn, blockTick_hold hr hl hn, hresponses, List.any_cons, hi, Bool.false_or]
      exact ⟨rfl, hregister⟩

/-- Settles O40: both runs are the block's, to which `runBlock_of_hostInitialises` applies. -/
theorem initialisedRunForgetsPowerUpState : Obligations.InitialisedRunForgetsPowerUpState := by
  intro s u stream hduty
  obtain ⟨hresponses, hregister⟩ := runBlock_of_hostInitialises hduty s.S u.S
  refine ⟨_, _, (runBlock s.S stream).2, registerIsTheWholeStateOfARun s stream,
    registerIsTheWholeStateOfARun u stream, rfl, ?_, hregister⟩
  rw [hresponses]

/-- Over `STEP`s and `HOLD`s alone, in any encoding, the block's run is that of as many `STEP`s, but for empty responses. -/
theorem runBlock_of_steps_and_holds {ts : List TickInputs} (h : ∀ t ∈ ts, t.rst = false ∧ t.load = false)
    (S : BlockState) :
    (runBlock S ts).1 = weylInc^[ts.countP outValid] S ∧
      (runBlock S ts).2.filterMap id = (stepResponses S (ts.countP outValid)).filterMap id := by
  induction ts generalizing S with
  | nil => simp
  | cons t ts ih =>
    obtain ⟨⟨hr, hl⟩, hrest⟩ := List.forall_mem_cons.mp h
    have hvalid : outValid t = t.next := by simp [outValid, hr, hl]
    rw [runBlock_cons]
    cases hn : t.next with
    | true =>
      obtain ⟨hregister, hwords⟩ := ih hrest (weylInc S)
      rw [List.countP_cons_of_pos (hvalid.trans hn), blockTick_step hr hl hn, Function.iterate_succ_apply,
        stepResponses_succ]
      exact ⟨hregister, by simpa using hwords⟩
    | false =>
      obtain ⟨hregister, hwords⟩ := ih hrest S
      rw [List.countP_cons_of_neg (by simp [hvalid, hn]), blockTick_hold hr hl hn]
      exact ⟨hregister, by simpa using hwords⟩

/-- The words given by `n` `STEP`s, every state in closed form. -/
theorem filterMap_stepResponses (S : Word) (n : Nat) :
    (stepResponses S n).filterMap id =
      (List.range n).map fun j => outWord (BitVec.ofNat 32 (S.toNat + (j + 1) * 0x9E3779B9)) := by
  rw [stepResponses_eq, List.filterMap_map, ← List.filterMap_eq_map]
  rfl

/-- Settles O36: what came before the `SEED` is in the part of the record that is dropped, and after it there are `STEP`s and
`HOLD`s alone. -/
theorem seedErasesHistory : Obligations.SeedErasesHistory := by
  intro s before after v nx hafter
  obtain ⟨hregister, hwords⟩ := runBlock_of_steps_and_holds hafter v
  refine ⟨_, registerIsTheWholeStateOfARun s _, ?_, ?_⟩
  · rw [runBlock_append, runBlock_cons, blockTick_seed rfl rfl, hregister, toNat_weylInc_iterate]
  · rw [runBlock_append, runBlock_cons, blockTick_seed rfl rfl, ← filterMap_stepResponses, ← hwords,
      ← List.append_assoc, List.drop_left' (by rw [List.length_append, length_runBlock])]
    simp

/-! ## Save, restore and shifted copies (R72, R79) -/

/-- The block's run in which `SEED` puts back the register value that `first` left: from there the second part runs as it
does right after `first`. -/
theorem runBlock_save_restore (S : BlockState) (first between second : List TickInputs) :
    runBlock S (first ++ between ++ .ofInstr (.seed (runBlock S first).1) :: second) =
      ((runBlock (runBlock S first).1 second).1,
        ((runBlock S first).2 ++ (runBlock (runBlock S first).1 between).2) ++
          none :: (runBlock (runBlock S first).1 second).2) := by
  rw [runBlock_append, runBlock_append, runBlock_cons, blockTick_ofInstr, blockExec, blockSeed]

/-- Settles O43: the register is all that the second part starts from, and `SEED` puts back what `state_q` showed. -/
theorem saveAndRestoreThroughStateQ : Obligations.SaveAndRestoreThroughStateQ := by
  intro s first between second
  refine ⟨_, _, _, (runBlock (runBlock s.S first).1 second).2, registerIsTheWholeStateOfARun s first,
    registerIsTheWholeStateOfARun s _, registerIsTheWholeStateOfARun s _, length_runBlock _ second, ?_, ?_,
    (runBlock (runBlock s.S first).1 between).2, ?_⟩
  · rw [stateQ_eq, runBlock_save_restore, runBlock_append]
  · rw [runBlock_append, List.append_assoc]
  · rw [stateQ_eq, runBlock_save_restore]
    simp only [List.append_assoc]

/-- The responses of `m + n` `STEP`s are those of the first `m` and of the `n` from the state these leave. -/
theorem stepResponses_add (S : Word) (m n : Nat) :
    stepResponses S (m + n) = stepResponses S m ++ stepResponses (weylInc^[m] S) n := by
  induction m generalizing S with
  | zero => rw [Nat.zero_add, stepResponses_zero, List.nil_append, Function.iterate_zero_apply]
  | succ m ih =>
    rw [Nat.succ_add_eq_add_succ, Nat.add_succ, stepResponses_succ, ih, stepResponses_succ, List.cons_append,
      Function.iterate_succ_apply]

@[simp] theorem length_stepResponses (S : Word) (n : Nat) : (stepResponses S n).length = n := by
  rw [stepResponses, List.length_map, List.length_iterate]

/-- `m` Weyl steps add `m` increments. -/
theorem weylInc_iterate_eq_add (x : Word) (m : Nat) :
    weylInc^[m] x = x + BitVec.ofNat 32 m * 0x9E3779B9#32 := by
  rw [weylInc_iterate, BitVec.ofNat_add, BitVec.ofNat_mul, BitVec.ofNat_toNat, BitVec.setWidth_eq]

/-- Settles O44: after its first `m` steps the first register holds what the second starts with. -/
theorem instancesGiveShiftedStreams : Obligations.InstancesGiveShiftedStreams := by
  intro a b m n hb
  have hshift : b.S = weylInc^[m] a.S := hb.trans (weylInc_iterate_eq_add a.S m).symm
  refine ⟨_, _, runStream_replicate_step (m + n) a, runStream_replicate_step n b, ?_, ?_⟩
  · rw [hshift, ← Function.iterate_add_apply, Nat.add_comm]
  · rw [stepResponses_add, ← List.append_assoc, List.drop_left' (by rw [List.length_append, length_stepResponses]),
      List.drop_left, hshift]

/-! ## The spec's inferences on the datapath (41_step.md) -/

/-- Settles O3: the sum stays below `2^32` exactly up to the limit. -/
theorem weylIncWrapsExactlyAboveLimit : Obligations.WeylIncWrapsExactlyAboveLimit := by
  intro x
  have hx := x.isLt
  rw [weylInc_eq, toNat_add_inc]
  constructor
  · intro hle
    omega
  · intro hgt
    omega

/-- Settles O38: an odd increment is a unit, so `2^n` steps count as none, and each value has one count in a period. -/
theorem reducedWidthWeylStepHasFullPeriod : Obligations.ReducedWidthWeylStepHasFullPeriod := by
  intro n c x _ hc
  have hodd : Odd c.toNat := Nat.odd_iff.mpr hc
  refine ⟨?_, weylAdd_iterate_existsUnique hodd x⟩
  exact (weylAdd_iterate_eq_iff hodd x (2 ^ n) 0).mpr (Nat.modEq_zero_iff_dvd.mpr dvd_rfl)

/-- A word is its two halves. -/
theorem append_halves (x : Word) : x.extractLsb' 16 16 ++ x.extractLsb' 0 16 = x := by
  have hjoin : x.extractLsb' 16 16 ++ x.extractLsb' 0 16 = x.extractLsb' 0 32 :=
    BitVec.extractLsb'_append_extractLsb'_eq_extractLsb' rfl
  exact hjoin.trans BitVec.extractLsb'_eq_self

/-- Rotating a word given by its halves. -/
theorem rotl16_append (h l : BitVec 16) : rotl16 (h ++ l) = l ++ h := by
  rw [rotl16_eq, BitVec.extractLsb'_append_eq_left, BitVec.extractLsb'_append_eq_right]

theorem rotl16_rotl16 (x : Word) : rotl16 (rotl16 x) = x := by
  rw [rotl16_eq x, rotl16_append, append_halves]

/-- Two words in halves are equal exactly when the halves are. -/
theorem append_halves_inj (h l h' l' : BitVec 16) : h ++ l = h' ++ l' ↔ h = h' ∧ l = l' := by
  constructor
  · intro heq
    have hhigh := congrArg (BitVec.extractLsb' 16 16) heq
    have hlow := congrArg (BitVec.extractLsb' 0 16) heq
    rw [BitVec.extractLsb'_append_eq_left, BitVec.extractLsb'_append_eq_left] at hhigh
    rw [BitVec.extractLsb'_append_eq_right, BitVec.extractLsb'_append_eq_right] at hlow
    exact ⟨hhigh, hlow⟩
  · rintro ⟨rfl, rfl⟩
    rfl

/-- The fixed points of the rotate are the words with equal halves. -/
theorem rotl16_eq_self_iff (x : Word) : rotl16 x = x ↔ x.extractLsb' 16 16 = x.extractLsb' 0 16 := by
  have hfixed : rotl16 x = x ↔
      x.extractLsb' 0 16 ++ x.extractLsb' 16 16 = x.extractLsb' 16 16 ++ x.extractLsb' 0 16 := by
    rw [append_halves, rotl16_eq]
  rw [hfixed, append_halves_inj]
  constructor
  · rintro ⟨hlow, _⟩
    exact hlow.symm
  · intro hhalves
    exact ⟨hhalves.symm, hhalves⟩

/-- A word has equal halves exactly when it is one half repeated, and then that half is determined. -/
theorem halves_eq_iff_existsUnique (x : Word) :
    x.extractLsb' 16 16 = x.extractLsb' 0 16 ↔ ∃! h : BitVec 16, x = h ++ h := by
  constructor
  · intro hhalves
    refine ⟨x.extractLsb' 0 16, ?_, fun h hx => ?_⟩
    · have hx := append_halves x
      rw [hhalves] at hx
      exact hx.symm
    · obtain ⟨_, hlow⟩ := (append_halves_inj _ _ _ _).mp ((append_halves x).trans hx)
      exact hlow.symm
  · rintro ⟨h, hx, _⟩
    obtain ⟨hhigh, hlow⟩ := (append_halves_inj _ _ _ _).mp ((append_halves x).trans hx)
    exact hhigh.trans hlow.symm

/-- Settles O6: the rotate undoes itself, and its fixed points are read off the halves. -/
theorem rotl16InvolutionAndFixedPoints : Obligations.Rotl16InvolutionAndFixedPoints := fun x =>
  ⟨rotl16_rotl16 x, rotl16_eq_self_iff x, (rotl16_eq_self_iff x).trans (halves_eq_iff_existsUnique x)⟩

/-- Settles O8: reading a word as signed and taking 32 bits again is the identity, and `ofInt` is multiplicative. -/
theorem mul32SameUnderSignedReading : Obligations.Mul32SameUnderSignedReading := by
  intro a b
  rw [mul32_eq, BitVec.ofInt_mul, BitVec.ofInt_toInt, BitVec.ofInt_toInt]

/-- A word in halves as a number. -/
theorem toNat_append_halves (h l : BitVec 16) : (h ++ l).toNat = h.toNat * 2 ^ 16 + l.toNat := by
  rw [BitVec.toNat_append, ← Nat.shiftLeft_add_eq_or_of_lt l.isLt, Nat.shiftLeft_eq]

/-- Settles O11: with `x = xh * 2^16 + xl` and the halves exchanged in the other factor, the term `xh * xl * 2^32` of the
product is a multiple of the modulus. -/
theorem mixerHalfWordForm : Obligations.MixerHalfWordForm := by
  intro x xh xl
  have hx : x.toNat = xh * 2 ^ 16 + xl := by
    rw [← toNat_append_halves, append_halves]
  have hr : (rotl16 x).toNat = xl * 2 ^ 16 + xh := by
    rw [rotl16_eq, toNat_append_halves]
  have hproduct : (xh * 2 ^ 16 + xl) * (xl * 2 ^ 16 + xh) =
      xh * xl + (xh ^ 2 + xl ^ 2) * 2 ^ 16 + 2 ^ 32 * (xh * xl) := by ring
  rw [toNat_mixer, hx, hr, hproduct, Nat.add_mul_mod_self_left]
  omega

/-! ### The output map (R55) -/

/-- The mixer does not see a rotation: its two factors change places. -/
theorem mixer_rotl16 (x : Word) : mixer (rotl16 x) = mixer x := by
  rw [mixer_eq, rotl16_rotl16, BitVec.mul_comm, mixer_eq]

/-- The second `fold` mixes the same high half into the low one, which cancels. -/
theorem fold_fold (x : Word) : fold (fold x) = x := by
  rw [fold_eq_append (fold x), fold_eq_append x, BitVec.extractLsb'_append_eq_left,
    BitVec.extractLsb'_append_eq_right, BitVec.xor_assoc, BitVec.xor_self, BitVec.xor_zero, append_halves]

/-- Two states have the same output word, so among finitely many words some word is no output. -/
theorem exists_word_outWord_ne : ∃ y : Word, ∀ w : Word, outWord w ≠ y := by
  have hcollide : outWord 0x00000001#32 = outWord 0x00010000#32 := by decide
  have hnot : ¬ Function.Surjective outWord := fun hsurj =>
    absurd (Finite.injective_iff_surjective.mpr hsurj hcollide) (by decide)
  simpa [Function.Surjective] using hnot

/-- Settles O12: the mixer is blind to a rotation, `fold` undoes itself, and a collision leaves some word out. -/
theorem outputMapIsNotOnto : Obligations.OutputMapIsNotOnto := by
  refine ⟨fun x => ⟨mixer_rotl16 x, fold_fold x, ?_⟩, by decide, by decide, by decide, by decide,
    exists_word_outWord_ne⟩
  rw [outWord_eq, mixer_rotl16, outWord_eq]

/-! ## The host layer (45_host_layer.md) -/

theorem nextUnitFloat_eq (s : State) :
    nextUnitFloat s =
      some (unitFloatValue (outWord (weylInc s.S)), s.commit (weylInc s.S) (some (outWord (weylInc s.S)))) := by
  rw [nextUnitFloat, nextUint32_eq]

/-- The quotient of a word is at least 0 and at most `(2^32 - 1) / 2^32`. -/
theorem unitFloatValue_bounds (u : Word) : 0 ≤ unitFloatValue u ∧ unitFloatValue u ≤ 1 - 1 / 2 ^ 32 := by
  have hu : (u.toNat : ℚ) ≤ 4294967295 := by
    have hlt := u.isLt
    exact_mod_cast (by omega : u.toNat ≤ 4294967295)
  rw [unitFloatValue]
  constructor
  · positivity
  · linarith

/-- Settles O48: the quotient of the committed word, its bounds, and the state one increment below 0. -/
theorem unitFloatStaysBelowOne : Obligations.UnitFloatStaysBelowOne := by
  refine ⟨fun s => ⟨_, exec_step s, ?_⟩, fun u => ?_, ?_⟩
  · rw [nextUnitFloat_eq, unitFloatValue, outWord_eq]
    norm_num
  · obtain ⟨hnonneg, hle⟩ := unitFloatValue_bounds u
    exact ⟨hnonneg, by linarith, hle⟩
  · have hzero : outWord (weylInc 0x61C88647#32) = 0x00000000#32 := by decide
    have hvalue : unitFloatValue 0x00000000#32 = 0 := by simp [unitFloatValue]
    have hcall := nextUnitFloat_eq { S := 0x61C88647#32, pending := [], responses := [] }
    rw [hzero, hvalue] at hcall
    exact ⟨_, _, hcall⟩

/-- A value of `nextInRange` comes from bounds in order, and is the rounded quotient. -/
theorem rangeValue_eq_some {rounding : Config.RangeRounding} {min max v : Int} {u : Word}
    (h : rangeValue rounding min max u = some v) :
    min < max ∧ roundQuotient rounding (rangeNumerator min max u) = v := by
  unfold rangeValue at h
  split at h
  · next hguard =>
    simp only [Bool.and_eq_true, decide_eq_true_eq] at hguard
    obtain ⟨⟨⟨⟨_, hlt⟩, _⟩, _⟩, _⟩ := hguard
    exact ⟨hlt, Option.some.inj h⟩
  · cases h

theorem roundQuotient_truncate_eq_floor {n : Int} (h : 0 ≤ n) :
    roundQuotient .truncate n = roundQuotient .floor n := by
  rw [roundQuotient, roundQuotient, Int.tdiv_eq_ediv_of_nonneg h, Int.fdiv_eq_ediv_of_nonneg _ (by decide)]


/-- `floor` of the quotient lies in the interval: the numerator is at least `min * 2^32`, and below `max * 2^32` since the word
is below `2^32`. -/
theorem roundQuotient_floor_mem {min max : Int} (h : min < max) (u : Word) :
    min ≤ roundQuotient .floor (rangeNumerator min max u) ∧
      roundQuotient .floor (rangeNumerator min max u) < max := by
  have hu : (u.toNat : Int) < 4294967296 := by exact_mod_cast u.isLt
  have hlow : 0 ≤ (u.toNat : Int) * (max - min) := Int.mul_nonneg (Int.natCast_nonneg _) (by omega)
  have hhigh : (u.toNat : Int) * (max - min) < 4294967296 * (max - min) := Int.mul_lt_mul_of_pos_right hu (by omega)
  rw [roundQuotient, Int.fdiv_eq_ediv_of_nonneg _ (by decide), rangeNumerator]
  constructor
  · exact Int.le_ediv_of_mul_le (by decide) (by omega)
  · exact Int.ediv_lt_of_lt_mul (by decide) (by omega)

/-- Bounds in order, the lower one not negative, make the numerator not negative. -/
theorem rangeNumerator_nonneg {min max : Int} (hmin : 0 ≤ min) (h : min < max) (u : Word) :
    0 ≤ rangeNumerator min max u := by
  have hspan : 0 ≤ (u.toNat : Int) * (max - min) := Int.mul_nonneg (Int.natCast_nonneg _) (by omega)
  rw [rangeNumerator]
  omega

/-- Where the bounds are in order the numerator is not negative, and elsewhere neither rounding is asked. -/
theorem rangeValue_truncate_eq_floor {min max : Int} (hmin : 0 ≤ min) (u : Word) :
    rangeValue .truncate min max u = rangeValue .floor min max u := by
  by_cases h : min < max
  · rw [rangeValue, rangeValue, roundQuotient_truncate_eq_floor (rangeNumerator_nonneg hmin h u)]
  · simp [rangeValue, h]

/-- Settles O49: the two roundings by the numerator's sign, `floor` by its bounds, and the rows of the table computed. -/
theorem rangeRoundingDefectNeedsNegativeBound : Obligations.RangeRoundingDefectNeedsNegativeBound := by
  refine ⟨fun min max u hmin => rangeValue_truncate_eq_floor hmin u, fun min max u v hv => ?_,
    by decide, by decide, by decide, by decide, by decide, by decide, by decide, by decide, by decide⟩
  obtain ⟨hlt, rfl⟩ := rangeValue_eq_some hv
  exact roundQuotient_floor_mem hlt u

/-- The wrap of an integer as a number. -/
theorem toNat_coerce32 (z : Int) : ((coerce32 z).toNat : Int) = z % 2 ^ 32 := by
  rw [coerce32, BitVec.toNat_ofInt, Int.toNat_of_nonneg (Int.emod_nonneg z (by decide))]
  rfl

theorem coerceSeed_intCast (policy : Config.SeedNonIntPolicy) (z : Int) :
    coerceSeed policy (some (z : ℚ)) = some (coerce32 z) := by
  simp only [coerceSeed, Rat.den_intCast, Rat.num_intCast, if_true]

theorem coerceSeed_refuse {q : ℚ} (h : q.den ≠ 1) : coerceSeed .refuse (some q) = none := by
  simp only [coerceSeed, if_neg h]

/-- Settles O50: the wrap as a number, the policy asked for no integer, and the examples. -/
theorem seedCoercionWrapsIntegers : Obligations.SeedCoercionWrapsIntegers :=
  ⟨toNat_coerce32, fun policy => ⟨rfl, coerceSeed_intCast policy⟩, fun _ => coerceSeed_refuse,
    by decide, by decide, by decide, by decide⟩

/-! ## The assembler's lines (R38) -/

/-- A line that stands for one command assembles to one tick without reset, which carries the command's canonical word. -/
theorem assembleLine_of_command {l : AsmLine} {i : Instr} (hwf : l.wellFormed = true)
    (hev : AsmLine.events l = [.command i]) :
    ∃ t, assembleLine l = .ok [t] ∧ t.rst = false ∧ t.cmd = encode i := by
  refine ⟨.ofInstr i, ?_, rfl, cmd_ofInstr i⟩
  rw [assembleLine_of_wellFormed hwf, hev]
  rfl

theorem assembleLine_of_not_wellFormed {l : AsmLine} (h : l.wellFormed = false) :
    assembleLine l = .error .literalOutOfRange := by
  rw [assembleLine, h, if_neg Bool.false_ne_true]

theorem isImm32_of_lt {n : Nat} (h : n < 2 ^ 32) : isImm32 n = true := decide_eq_true h

theorem isImm32_of_le {n : Nat} (h : 2 ^ 32 ≤ n) : isImm32 n = false := decide_eq_false (Nat.not_lt.mpr h)

/-- The canonical `SEED` word of a literal in range. -/
theorem encode_seed_ofNat {imm : Nat} (h : imm < 2 ^ 32) :
    encode (.seed (BitVec.ofNat 32 imm)) = 0x200000000#34 ||| BitVec.ofNat 34 imm := by
  rw [encode, BitVec.setWidth_ofNat_of_le_of_lt (by decide) h]

/-- Settles O45: each line of one command carries its canonical word, a literal out of range is refused, and the texts are
read. -/
theorem assemblerGivesCanonicalWords : Obligations.AssemblerGivesCanonicalWords := by
  refine ⟨assembleLine_of_wellFormed (l := .reset) rfl, assembleLine_of_command (i := .hold) rfl rfl,
    fun name => assembleLine_of_command (i := .step) rfl rfl, fun imm himm => ?_, fun imm himm => ⟨?_, ?_⟩,
    by decide, by decide, by decide, by decide⟩
  · rw [← encode_seed_ofNat himm]
    exact assembleLine_of_command (isImm32_of_lt himm) rfl
  · exact assembleLine_of_not_wellFormed (isImm32_of_le himm)
  · exact assembleLine_of_not_wellFormed (isImm32_of_le himm)

end Sys2Proof.Machine
